-- ==== Sys2Proof/Word.lean ====
section
/-! DEFINITION. The word types of the engine and the plain notation of 00_scope.md rules R9 and R10.

Coordinates are computed in `Int`, exactly and without wrap (R9); bit vectors hold what the spec treats as bits:
framebuffer and stream bytes, operand patterns, the 16-bit and 2-bit registers. -/

namespace Sys2Proof

/-- A byte: 8 bits, bit 0 the least significant (R10). -/
abbrev Byte := BitVec 8

/-- A 16-bit operand or register pattern: `i16` when read with `toInt`, `u16` when read with `toNat` (R83). -/
abbrev Half := BitVec 16

/-- A 32-bit operand pattern, an `i32` when read with `toInt` (R83). -/
abbrev Word32 := BitVec 32

/-- The integers `a, a+1, ..., b-1` in that order, none when `b ≤ a`: the loop range `[a, b)` of R11. -/
def span (a b : Int) : List Int :=
  (List.range (b - a).toNat).map fun (i : Nat) => a + (i : Int)

end Sys2Proof
end

