-- ==== Sys2Proof/Config.lean ====
section
/-! DEFINITION. The constants and parameters of 00_scope.md rule R7, and the one free value of the environment.

The parameters are a record of plain data, held in the state and never written by a step, so that every statement of
the model holds for every choice of them (R36: the `RESET_*` values are a draw; 93_implementation_defined.md). -/

namespace Sys2Proof

/-- Pixels per row, and bytes per page (R7). -/
abbrev WIDTH : Nat := 128
/-- Pixel rows (R7). -/
abbrev HEIGHT : Nat := 64
/-- Bytes of the framebuffer (R7). -/
abbrev FB_BYTES : Nat := 1024
/-- Bytes per glyph in the font table (R7). -/
abbrev GLYPH_BYTES : Nat := 8
/-- First rendered glyph row (R7, R151). -/
abbrev V_OFF : Nat := 1
/-- First rendered glyph column (R7, R151). -/
abbrev H_OFF : Nat := 2
/-- Columns advanced per character at font size 1 (R7, R168). -/
abbrev ADVANCE : Nat := 6
/-- Framebuffer bytes per data transaction of a sync (R7, R204). -/
abbrev SYNC_CHUNK : Nat := 16
/-- Data transactions of a sync (R7, R204). -/
abbrev SYNC_CHUNKS : Nat := 64
/-- The longest payload of a transaction (R7, R61). -/
abbrev TRANSPORT_MAX : Nat := 32

/-- The parameters of R7: fixed before reset is released and written by no command (R28). `FONT_BYTES` is the length
of `font`. -/
structure Config where
  /-- `PROFILE` contains `LAYOUT` -/
  layout : Bool
  /-- `PROFILE` contains `SYNC` -/
  sync : Bool
  /-- `FONT`, the contents of the `FONT` space (R53) -/
  font : List Byte
  /-- `FONT_PRESENT` (R28) -/
  fontPresent : Bool
  /-- `CFG_FONT_BASE` (R28) -/
  fontBase : Half
  /-- `TEXT_MAX` (R86) -/
  textMax : Nat
  /-- `INT_BUF_CAP`, the terminator included (R171) -/
  intBufCap : Nat
  /-- `DEV_ADDR` (R212) -/
  devAddr : BitVec 7
  /-- `RESET_CUR_X` (R36) -/
  resetCurX : Half
  /-- `RESET_CUR_Y` (R36) -/
  resetCurY : Half
  /-- `RESET_FONT_SIZE` (R36) -/
  resetFontSize : Half
  /-- `RESET_COLOR` (R36) -/
  resetColor : BitVec 2
deriving DecidableEq, Repr

/-- `FONT_BYTES` (R7, R53). -/
def Config.fontBytes (cfg : Config) : Nat := cfg.font.length

/-- The defaults of R7. DESIGN CHOICE (log 2, log 3) for what R7 gives no default: the font's bytes are zero, a font is
present, both option profiles are present, and the `RESET_*` values are zero. Unsafe for a claim about this one
configuration; the statements of the package are about every configuration. -/
def Config.default : Config where
  layout := true
  sync := true
  font := List.replicate 2048 0
  fontPresent := true
  fontBase := 0
  textMax := 255
  intBufCap := 11
  devAddr := 0x3C
  resetCurX := 0
  resetCurY := 0
  resetFontSize := 0
  resetColor := 0

/-- FREE VALUE (log 4): the transport's answer to transaction number `n`, where the launch gives none (20_memory.md
R62: an input the environment draws, under no law). It has no body, so no proof can see it. -/
opaque Config.freeAck : Nat → Bool

end Sys2Proof
end

