-- ==== Sys2Proof/Syntax.lean ====
section
/-! DEFINITION. The fifteen commands as syntax (30_encoding.md rules R83 to R100), their opcodes, profiles and lengths
(R88, R107), and the four color directives (R85). -/

namespace Sys2Proof

/-- The color directives, in the order the spec numbers them (R85). -/
inductive Directive where
  /-- the bit becomes 1 -/
  | set
  /-- the bit becomes 0 -/
  | clear
  /-- the bit is toggled -/
  | invert
  /-- no mutation -/
  | ignore
deriving DecidableEq, Repr

/-- The profiles of R4. `core` is always present. -/
inductive Profile where
  | core
  | layout
  | sync
deriving DecidableEq, Repr

/-- The eight row bytes of one glyph, `g0` the top row (R87, R150). -/
structure Glyph where
  g0 : Byte
  g1 : Byte
  g2 : Byte
  g3 : Byte
  g4 : Byte
  g5 : Byte
  g6 : Byte
  g7 : Byte
deriving DecidableEq, Repr

/-- The mnemonics of R88, one per opcode. -/
inductive Op where
  | setPixel
  | getPixel
  | drawRect
  | drawChar
  | drawStr
  | drawInt
  | setCursor
  | setFontSize
  | setColor
  | printStr
  | printChar
  | printInt
  | clear
  | sync
  | begin
deriving DecidableEq, Repr

/-- The commands with their operands (R89 to R100). A `col` operand is kept as the byte of the packet: all 256 values
can be encoded, and the command's own rule raises `IllegalOperand` for those above 3 (R105). A text is its bytes
without the terminator (R86). -/
inductive Instr where
  | setPixel (x y : Half) (color : Byte)
  | getPixel (x y : Half)
  | drawRect (x y w h : Half) (color : Byte)
  | drawChar (x y size : Half) (color : Byte) (glyph : Glyph)
  | drawStr (x y fbase size : Half) (color : Byte) (text : List Byte)
  | drawInt (x y fbase size : Half) (color : Byte) (num : Word32)
  | setCursor (x y : Half)
  | setFontSize (size : Half)
  | setColor (color : Byte)
  | printStr (text : List Byte)
  | printChar (c : Byte)
  | printInt (num : Word32)
  | clear
  | sync
  | begin
deriving DecidableEq, Repr

/-- The mnemonic of a command. -/
def Instr.op : Instr → Op
  | .setPixel _ _ _ => .setPixel
  | .getPixel _ _ => .getPixel
  | .drawRect _ _ _ _ _ => .drawRect
  | .drawChar _ _ _ _ _ => .drawChar
  | .drawStr _ _ _ _ _ _ => .drawStr
  | .drawInt _ _ _ _ _ _ => .drawInt
  | .setCursor _ _ => .setCursor
  | .setFontSize _ => .setFontSize
  | .setColor _ => .setColor
  | .printStr _ => .printStr
  | .printChar _ => .printChar
  | .printInt _ => .printInt
  | .clear => .clear
  | .sync => .sync
  | .begin => .begin

end Sys2Proof
end

