-- ==== Sys2Proof/Machine/State.lean ====
section
/-! DEFINITION. The state of the engine (10_state.md R20 to R37), the reasons a step does not exist (30_encoding.md
R81), and the state after reset (R36). -/

namespace Sys2Proof.Machine

/-- The framebuffer space: address and byte, addresses strictly rising, no byte 0x00 listed. An unlisted address
reads as 0x00, which is what `FB` holds after reset (R21). -/
abbrev Memory := List Host.Cell

/-- A transaction handed to the bus transport (R61). -/
structure Transaction where
  addr : BitVec 7
  payload : List Byte
deriving DecidableEq, Repr

/-- The whole state (R20), and with it the parameters of the step relation (R28, R37, R62), which no step writes. -/
structure State where
  /-- `FB` (R21) -/
  fb : Memory
  /-- `CUR_X` (R25) -/
  curX : Half
  /-- `CUR_Y` (R25) -/
  curY : Half
  /-- `FONT_SIZE` (R25) -/
  fontSize : Half
  /-- `COLOR`, the 2-bit directive code (R25, R85) -/
  color : BitVec 2
  /-- `PC`, a byte offset into `CMD` (R29) -/
  pc : Nat
  /-- `FAULT`, 0 or the cause code of the first fault (R30) -/
  fault : Byte
  /-- `FAULT_PC` (R30) -/
  faultPc : Nat
  /-- `RSP`, oldest byte first (R60) -/
  rsp : List Byte
  /-- `TX`, oldest transaction first (R61) -/
  tx : List Transaction
  /-- `CMD`, the command stream; `CMD_LEN` is its length (R54) -/
  cmd : List Byte
  /-- the configuration (R28) -/
  cfg : Config
  /-- the transport's answers given with the launch, the answer to transaction 0 first (R62) -/
  acks : List Bool
deriving DecidableEq, Repr

/-- The faults of R221 with the `info` their `raise` names; the info is held in no register. -/
inductive FaultCause where
  /-- raised by the sequencer for an opcode that is not assigned (R224) -/
  | illegalCommand (op : Byte)
  /-- raised by the decode of `DRAWSTR` and `PRINTSTR` (R225) -/
  | textUnterminated
  /-- raised by the six commands with a `col` byte (R226) -/
  | illegalOperand (v : Byte)
  /-- raised by `DRAWINT` and `PRINTINT` (R227) -/
  | formatOverflow (n : Int)
  /-- raised by the commands that fetch a glyph from `FONT` (R228) -/
  | fontBounds (c : Byte)
deriving DecidableEq, Repr

/-- Why there is no step (R81). The faults of R221 are not here: taking one is a step to a next state (R222). -/
inductive Fault where
  /-- Raised by `step` when `FAULT` is not 0: the engine is halted and executes nothing (R222). Safe: the spec has no
  step here. -/
  | halted
  /-- Raised by `step` when `PC = CMD_LEN` and `FAULT = 0`: the run is over and the state final (R81). Safe: the spec
  has no step here. -/
  | finished
  /-- Raised by `step` when the stream ends inside a command: the engine is stuck (R242). Safe: the spec has no step
  here. -/
  | stuck
  /-- Raised by `step` when `PC` is beyond `CMD_LEN`, where `CMD` has no byte (R50); no run reaches such a state. Safe:
  the model stops. -/
  | fetchOutside
deriving DecidableEq, Repr

/-- Refusals. -/
inductive Refusal where
  /-- Answered by `exec`'s arm of an instruction without a meaning; no arm is left in that form. Safe: the model
  stops. -/
  | notModelled (mnemonic : String)
deriving DecidableEq, Repr

/-- The state after reset of an engine with this configuration, command stream and transport answers (R36, R250):
`FB` zero, `PC`, `FAULT` and `FAULT_PC` 0, the logs empty, the cursor and style registers at the parameters
`RESET_*`. -/
def State.resetOf (cfg : Config) (cmd : List Byte) (acks : List Bool) : State where
  fb := []
  curX := cfg.resetCurX
  curY := cfg.resetCurY
  fontSize := cfg.resetFontSize
  color := cfg.resetColor
  pc := 0
  fault := 0
  faultPc := 0
  rsp := []
  tx := []
  cmd := cmd
  cfg := cfg
  acks := acks

/-- The machine right after reset, in the default configuration, no command stream loaded (log 2, 3, 4, 5). -/
def State.reset : State := State.resetOf Config.default [] []

end Sys2Proof.Machine
end

