-- ==== Sys2Proof/Machine/Ops.lean ====
section
/-! DEFINITION. The named operations over memory, registers and streams (00_scope.md R11): reading and writing one byte
of `FB`, the output logs, completing a command, taking a fault (60_exceptions.md R222), and reset (R250). -/

namespace Sys2Proof.Machine

/-! ### The framebuffer space -/

/-- `FB[a]` (R11). The entries stand in rising order, so the search stops at the first larger address; an unlisted
address holds 0x00 (R21). -/
def Memory.read : Memory → Nat → Byte
  | [], _ => 0
  | (k, v) :: m, a => if a < k then 0 else if a = k then v else Memory.read m a

/-- The cell of an address in canonical form: none for the byte an unlisted address reads as. -/
def Memory.cell (a : Nat) (v : Byte) (m : Memory) : Memory := if v = 0 then m else (a, v) :: m

/-- `FB[a] <- v` (R11), keeping the canonical form. -/
def Memory.write : Memory → Nat → Byte → Memory
  | [], a, v => Memory.cell a v []
  | (k, w) :: m, a, v =>
    if a < k then Memory.cell a v ((k, w) :: m)
    else if a = k then Memory.cell a v m
    else (k, w) :: Memory.write m a v

/-- `updateRun n a f m`: `FB[k] <- f(FB[k])` for the `n` addresses from `a` on, in one pass over a list whose entries
all lie at `a` or above. -/
def Memory.updateRun : Nat → Nat → (Byte → Byte) → Memory → Memory
  | 0, _, _, m => m
  | n + 1, a, f, [] => Memory.cell a (f 0) (Memory.updateRun n (a + 1) f [])
  | n + 1, a, f, (k, v) :: m =>
    if k = a then Memory.cell a (f v) (Memory.updateRun n (a + 1) f m)
    else Memory.cell a (f 0) (Memory.updateRun n (a + 1) f ((k, v) :: m))

/-- `FB[k] <- f(FB[k])` for the `n` addresses from `a` on. -/
def Memory.modifyRun (n a : Nat) (f : Byte → Byte) : Memory → Memory
  | [] => Memory.updateRun n a f []
  | (k, v) :: m => if k < a then (k, v) :: Memory.modifyRun n a f m else Memory.updateRun n a f ((k, v) :: m)

/-- The bytes at the `n` addresses from `a` on, in one pass over a list whose entries all lie at `a` or above. -/
def Memory.takeRun : Nat → Nat → Memory → List Byte
  | 0, _, _ => []
  | n + 1, a, [] => 0 :: Memory.takeRun n (a + 1) []
  | n + 1, a, (k, v) :: m =>
    if k = a then v :: Memory.takeRun n (a + 1) m else 0 :: Memory.takeRun n (a + 1) ((k, v) :: m)

/-- `MemRead(FB, a, n)`: `n` consecutive bytes, the lowest address first (R11). -/
def Memory.readList (n a : Nat) : Memory → List Byte
  | [] => Memory.takeRun n a []
  | (k, v) :: m => if k < a then Memory.readList n a m else Memory.takeRun n a ((k, v) :: m)

/-- `for a in [0, 1024) : FB[a] <- 0x00` (R200). -/
def Memory.zeroFill (m : Memory) : Memory := Memory.modifyRun FB_BYTES 0 (fun _ => 0) m

/-- The addresses rise strictly, from `lo` or above, and no listed byte is 0x00. -/
def Memory.sortedFrom : Nat → Memory → Bool
  | _, [] => true
  | lo, (k, v) :: m => decide (lo ≤ k) && decide (v ≠ 0) && Memory.sortedFrom (k + 1) m

/-- The canonical form of `FB`: strictly rising addresses, no 0x00 listed, every address in 0 to 1023 (R21, R51). -/
def Memory.wf (m : Memory) : Bool :=
  Memory.sortedFrom 0 m && m.all fun c => decide (c.1 < FB_BYTES)

/-! ### Registers and logs -/

/-- Replaces the framebuffer. -/
def State.setFb (s : State) (fb : Memory) : State := { s with fb := fb }

/-- `CUR_X <- x ; CUR_Y <- y` (R176). -/
def State.setCursor (s : State) (x y : Half) : State := { s with curX := x, curY := y }

/-- `FONT_SIZE <- size` (R177). -/
def State.setFontSize (s : State) (size : Half) : State := { s with fontSize := size }

/-- `COLOR <- code` (R178). -/
def State.setColor (s : State) (code : BitVec 2) : State := { s with color := code }

/-- `RSP.push(b)` (R60). -/
def State.pushRsp (s : State) (b : Byte) : State := { s with rsp := s.rsp ++ [b] }

/-- The transport's answer to the next transaction: the launch's list, and past its end the free value (R62, log 4).
Transactions are numbered from 0 since reset, so the next one's number is the length of `TX`. -/
def State.nextAck (s : State) : Bool := s.acks.getD s.tx.length (Config.freeAck s.tx.length)

/-- `TX.push((DEV_ADDR, payload))` (R61, R212). -/
def State.pushTx (s : State) (payload : List Byte) : State :=
  { s with tx := s.tx ++ [⟨s.cfg.devAddr, payload⟩] }

/-- `pc <- PC + L` at the completion of a command (R29, R81). -/
def State.advance (s : State) (len : Nat) : State := { s with pc := s.pc + len }

/-! ### Faults (60_exceptions.md) -/

/-- The code `FAULT` holds after the fault (R221). -/
def FaultCause.code : FaultCause → Byte
  | .illegalCommand _ => 1
  | .textUnterminated => 2
  | .illegalOperand _ => 3
  | .formatOverflow _ => 4
  | .fontBounds _ => 5

/-- Fault entry (R222): `FAULT` receives the code and `FAULT_PC` the faulting command's offset; nothing else changes,
`PC` included. There is no return from it but reset (R232). -/
def State.takeFault (s : State) (c : FaultCause) : State := { s with fault := c.code, faultPc := s.pc }

/-- Goes on with the value of a check, or takes the fault it raised; the state is the one before the command, so the
fault is precise (R223). -/
def State.orFault {α : Type} (s : State) (r : Except FaultCause α) (k : α → Host.Outcome State Fault Refusal) :
    Host.Outcome State Fault Refusal :=
  match r with
  | .error c => .next (s.takeFault c)
  | .ok a => k a

/-! ### Reset (70_reset_and_hazards.md) -/

/-- The reset event on a running or halted engine (R250): every piece of state at its reset value; the configuration,
the font and the command stream are not changed (R252); the environment answers the transactions after it anew. It is
an input from outside, no step performs it (R241). -/
def State.afterReset (s : State) (acks : List Bool) : State := State.resetOf s.cfg s.cmd acks

end Sys2Proof.Machine
end

