-- ==== Sys2Proof/Machine/Operands.lean ====
section
/-! DEFINITION. The operand types as values (30_encoding.md R83 to R85): the color directive of a `col` byte or of the
`COLOR` register, and the pixel effect of a directive (40_pixel.md R124). The `i16` and `i32` operands are read with
`BitVec.toInt`, the `u16` and `u8` operands with `BitVec.toNat` (R84). -/

namespace Sys2Proof.Machine

/-- The directive of a 2-bit code (R85). -/
def directiveOfCode (code : BitVec 2) : Directive :=
  if code = 0 then .set
  else if code = 1 then .clear
  else if code = 2 then .invert
  else .ignore

/-- The 2-bit code in bits 1:0 of a `col` byte (R85). -/
def colCode (v : Byte) : BitVec 2 := v.extractLsb' 0 2

/-- A `col` operand: its 2-bit code, or `IllegalOperand(v)` when any of bits 7:2 is set (R85, R105). -/
def checkCol (v : Byte) : Except FaultCause (BitVec 2) :=
  if v.extractLsb' 2 6 = 0 then .ok (colCode v) else .error (.illegalOperand v)

/-- What the directive does to the masked bits of one byte (R124). -/
def applyMask (d : Directive) (b m : Byte) : Byte :=
  match d with
  | .set => b ||| m
  | .clear => b &&& ~~~m
  | .invert => b ^^^ m
  | .ignore => b

/-- Row `i` of a glyph, row 0 the top (R150). -/
def glyphRow (g : Glyph) (i : Nat) : Byte :=
  match i with
  | 0 => g.g0
  | 1 => g.g1
  | 2 => g.g2
  | 3 => g.g3
  | 4 => g.g4
  | 5 => g.g5
  | 6 => g.g6
  | _ => g.g7

end Sys2Proof.Machine
end

