-- ==== Sys2Proof/Machine/Flags.lean ====
section
/-! DEFINITION. The engine has no flags and no condition codes (10_state.md R33). The only results a command leaves are
the two booleans of `GETPIXEL` and `BEGIN`, which go to the response stream as bytes (20_memory.md R60). -/

namespace Sys2Proof.Machine

/-- A boolean result on the response stream: 0x01 for true, 0x00 for false (R60). -/
def responseByte (b : Bool) : Byte := if b then 1 else 0

end Sys2Proof.Machine
end

