-- ==== Sys2Proof/Machine/Pixel.lean ====
section
/-! DEFINITION. The address translator, the pixel write operator and the pixel read, `SETPIXEL` and `GETPIXEL`
(40_pixel.md R120 to R128). -/

namespace Sys2Proof.Machine

/-! ### The address translator (R120, R121) -/

/-- `0 ≤ x < 128` and `0 ≤ y < 64` (R120). -/
def inRange (x y : Int) : Bool :=
  decide (0 ≤ x) && decide (x < WIDTH) && decide (0 ≤ y) && decide (y < HEIGHT)

/-- `y div 8`, for a row in range (R121). -/
def pageNumber (y : Int) : Nat := y.toNat / 8

/-- `y mod 8`, for a row in range (R121). -/
def pagePosition (y : Int) : Nat := y.toNat % 8

/-- The byte address of a pixel in range (R121). -/
def byteIndex (x y : Int) : Nat := pageNumber y * WIDTH + x.toNat

/-- The mask of a pixel's bit in its byte (R121). -/
def bitMask (y : Int) : Byte := 1#8 <<< pagePosition y

/-! ### The write operator and the read (R124, R125) -/

/-- `writePixel(x, y, d)` (R124). -/
def writePixel (x y : Int) (d : Directive) (fb : Memory) : Memory :=
  if inRange x y then
    match d with
    | .ignore => fb
    | .set | .clear | .invert =>
      Memory.write fb (byteIndex x y) (applyMask d (Memory.read fb (byteIndex x y)) (bitMask y))
  else fb

/-- `readPixel(x, y)` (R125). -/
def readPixel (x y : Int) (fb : Memory) : Bool :=
  if inRange x y then decide (Memory.read fb (byteIndex x y) &&& bitMask y ≠ 0) else false

/-! ### The commands -/

/-- `SETPIXEL x, y, color` (R127). -/
def execSetPixel (x y : Half) (color : Byte) (s : State) : Host.Outcome State Fault Refusal :=
  s.orFault (checkCol color) fun code =>
    .next ((s.setFb (writePixel x.toInt y.toInt (directiveOfCode code) s.fb)).advance 6)

/-- `GETPIXEL x, y` (R128). -/
def execGetPixel (x y : Half) (s : State) : Host.Outcome State Fault Refusal :=
  .next ((s.pushRsp (responseByte (readPixel x.toInt y.toInt s.fb))).advance 5)

end Sys2Proof.Machine
end

