-- ==== Sys2Proof/Machine/Rect.lean ====
section
/-! DEFINITION. The rectangle fill and `DRAWRECT` (41_rectangle.md R140 to R144). -/

namespace Sys2Proof.Machine

/-- The bits of page `p` whose rows lie in `[y0, y1)`: the masks of R121 of those rows, in one byte. -/
def pageMask (y0 y1 p : Nat) : Byte :=
  (List.range 8).foldl
    (fun m b => if y0 ≤ 8 * p + b ∧ 8 * p + b < y1 then m ||| 1#8 <<< b else m) 0

/-- The cells of page `p` in columns `[x0, x1)` and rows `[y0, y1)`: each column's byte gets all its bits at once. -/
def fillPage (x0 x1 y0 y1 : Nat) (d : Directive) (p : Nat) (fb : Memory) : Memory :=
  Memory.modifyRun (x1 - x0) (p * WIDTH + x0) (fun b => applyMask d b (pageMask y0 y1 p)) fb

/-- The cells in columns `[x0, x1)` and rows `[y0, y1)` of the panel, page by page. -/
def fillClipped (x0 x1 y0 y1 : Nat) (d : Directive) (fb : Memory) : Memory :=
  (List.range ((y1 + 7) / 8 - y0 / 8)).foldl (fun fb k => fillPage x0 x1 y0 y1 d (y0 / 8 + k) fb) fb

/-- `fillRect(x, y, w, h, d)` in the clipped form of R141: `[max(x, 0), min(x + w, 128)) × [max(y, 0), min(y + h, 64))`,
none for `IGNORE`. Coordinates are exact (R144); a rectangle of non-positive width or height has no cell (R143). That
this is the loop of `writePixel` of R140 is `fillRect_eq_loops` (Laws/Rect.lean, log 11). -/
def fillRect (x y w h : Int) (d : Directive) (fb : Memory) : Memory :=
  match d with
  | .ignore => fb
  | .set | .clear | .invert =>
    fillClipped (max x 0).toNat (min (x + w) WIDTH).toNat (max y 0).toNat (min (y + h) HEIGHT).toNat d fb

/-- `fillRect` as the loops of R140: the write operator on every cell of the half-open rectangle, row by row. The same
function on a memory in canonical form; too slow to run for a large rectangle. -/
def fillRectLoops (x y w h : Int) (d : Directive) (fb : Memory) : Memory :=
  (span y (y + h)).foldl (fun fb cy => (span x (x + w)).foldl (fun fb cx => writePixel cx cy d fb) fb) fb

/-- `DRAWRECT x, y, w, h, color` (R142). -/
def execDrawRect (x y w h : Half) (color : Byte) (s : State) : Host.Outcome State Fault Refusal :=
  s.orFault (checkCol color) fun code =>
    .next ((s.setFb (fillRect x.toInt y.toInt w.toInt h.toInt (directiveOfCode code) s.fb)).advance 10)

end Sys2Proof.Machine
end

