-- ==== Sys2Proof/Machine/Glyph.lean ====
section
/-! DEFINITION. The glyph rasterizer and scaler, and `DRAWCHAR` (42_glyph.md R150 to R159). -/

namespace Sys2Proof.Machine

/-- The source bit `g[i][7 − j]` of cell `(i, j)` (R151). -/
def glyphBit (g : Glyph) (i j : Nat) : Bool := (glyphRow g i).getLsbD (7 - j)

/-- The directive a cell is painted with, from its source bit and the requested directive (R152). -/
def cellColor (bit : Bool) (d : Directive) : Directive :=
  match d with
  | .invert => .invert
  | .set => if bit then .set else .ignore
  | .clear => if bit then .clear else .ignore
  | .ignore => .ignore

/-- One row of `drawGlyph`'s inner loop: the six cells of glyph row `i`, columns 2 to 7 (R156). -/
def drawGlyphRow (x y : Int) (g : Glyph) (size : Int) (d : Directive) (i : Nat) (fb : Memory) : Memory :=
  (List.range 6).foldl
    (fun fb k =>
      fillRect (x + size * (((H_OFF + k : Nat) : Int) - H_OFF)) (y + size * ((i : Int) - V_OFF)) size size
        (cellColor (glyphBit g i (H_OFF + k)) d) fb) fb

/-- `drawGlyph(x, y, g, s, d)` (R155, R156): each of the 42 cropped cells as a square block, rows 1 to 7 outside. -/
def drawGlyph (x y : Int) (g : Glyph) (size : Int) (d : Directive) (fb : Memory) : Memory :=
  (List.range 7).foldl (fun fb k => drawGlyphRow x y g size d (V_OFF + k) fb) fb

/-- `DRAWCHAR x, y, size, color, glyph` (R157). -/
def execDrawChar (x y size : Half) (color : Byte) (glyph : Glyph) (s : State) : Host.Outcome State Fault Refusal :=
  s.orFault (checkCol color) fun code =>
    .next ((s.setFb (drawGlyph x.toInt y.toInt glyph size.toInt (directiveOfCode code) s.fb)).advance 16)

end Sys2Proof.Machine
end

