-- ==== Sys2Proof/Machine/Layout.lean ====
section
/-! DEFINITION. Text and number layout, the cursor and style setters, and the print family (43_layout.md R165 to
R182). -/

namespace Sys2Proof.Machine

/-! ### Fetching a glyph (R166) -/

/-- `base + 8 × c` (R166). -/
def glyphAddr (base : Nat) (c : Byte) : Nat := base + GLYPH_BYTES * c.toNat

/-- The glyph's eight bytes lie inside the `FONT` space (R166, R228). -/
def glyphInFont (cfg : Config) (base : Nat) (c : Byte) : Bool := decide (glyphAddr base c + 7 < cfg.fontBytes)

/-- `FONT[a]`; only read at addresses `glyphInFont` has checked. -/
def fontByte (cfg : Config) (a : Nat) : Byte := cfg.font.getD a 0

/-- `MemRead(FONT, base + 8 × c, 8)` (R166). -/
def glyphAt (cfg : Config) (base : Nat) (c : Byte) : Glyph where
  g0 := fontByte cfg (glyphAddr base c)
  g1 := fontByte cfg (glyphAddr base c + 1)
  g2 := fontByte cfg (glyphAddr base c + 2)
  g3 := fontByte cfg (glyphAddr base c + 3)
  g4 := fontByte cfg (glyphAddr base c + 4)
  g5 := fontByte cfg (glyphAddr base c + 5)
  g6 := fontByte cfg (glyphAddr base c + 6)
  g7 := fontByte cfg (glyphAddr base c + 7)

/-- `fetchGlyph(base, c)` (R166). -/
def fetchGlyph (cfg : Config) (base : Nat) (c : Byte) : Except FaultCause Glyph :=
  if glyphInFont cfg base c then .ok (glyphAt cfg base c) else .error (.fontBounds c)

/-! ### Drawing a text (R167) -/

/-- The drawing loop of `drawText`, from the character at `x` on: each next character `6 × s` to the right (R167). -/
def drawChars (cfg : Config) (x y : Int) (base : Nat) (size : Int) (d : Directive) : List Byte → Memory → Memory
  | [], fb => fb
  | c :: text, fb =>
    drawChars cfg (x + ADVANCE * size) y base size d text (drawGlyph x y (glyphAt cfg base c) size d fb)

/-- `drawText(x, y, text, base, s, d)` (R167): the bounds of every character are checked, lowest index first, before
any is drawn. -/
def drawText (cfg : Config) (x y : Int) (text : List Byte) (base : Nat) (size : Int) (d : Directive) (fb : Memory) :
    Except FaultCause Memory :=
  match text.find? fun c => !glyphInFont cfg base c with
  | some c => .error (.fontBounds c)
  | none => .ok (drawChars cfg x y base size d text fb)

/-! ### Formatting an integer (R170 to R172) -/

/-- The character code of a decimal digit (R172). -/
def digitCode (v : Nat) : Byte := BitVec.ofNat 8 (0x30 + v)

/-- The decimal digits of `n` before those of `acc`, most significant first; none for 0. `fuel` bounds the number of
digits. -/
def digitsOnto : Nat → Nat → List Byte → List Byte
  | 0, _, acc => acc
  | fuel + 1, n, acc => if n = 0 then acc else digitsOnto fuel (n / 10) (digitCode (n % 10) :: acc)

/-- The digits of a positive number (R170). A number has no more digits than its value. -/
def digits (n : Nat) : List Byte := digitsOnto n n []

/-- `decimal(n)` as character codes (R170, R172). -/
def decimal (n : Int) : List Byte :=
  if n = 0 then [0x30] else if 0 < n then digits n.toNat else 0x2D :: digits (-n).toNat

/-- `formatInt(n)` (R171). -/
def formatInt (cfg : Config) (n : Int) : Except FaultCause (List Byte) :=
  if (decimal n).length + 1 > cfg.intBufCap then .error (.formatOverflow n) else .ok (decimal n)

/-! ### The direct commands -/

/-- `DRAWSTR x, y, fbase, size, color, text` (R169). -/
def execDrawStr (x y fbase size : Half) (color : Byte) (text : List Byte) (s : State) :
    Host.Outcome State Fault Refusal :=
  s.orFault (checkCol color) fun code =>
    s.orFault (drawText s.cfg x.toInt y.toInt text fbase.toNat size.toInt (directiveOfCode code) s.fb) fun fb =>
      .next ((s.setFb fb).advance (11 + text.length))

/-- `DRAWINT x, y, fbase, size, color, num` (R173). -/
def execDrawInt (x y fbase size : Half) (color : Byte) (num : Word32) (s : State) :
    Host.Outcome State Fault Refusal :=
  s.orFault (checkCol color) fun code =>
    s.orFault (formatInt s.cfg num.toInt) fun text =>
      s.orFault (drawText s.cfg x.toInt y.toInt text fbase.toNat size.toInt (directiveOfCode code) s.fb) fun fb =>
        .next ((s.setFb fb).advance 14)

/-! ### The setters -/

/-- `SETCURSOR x, y` (R176). -/
def execSetCursor (x y : Half) (s : State) : Host.Outcome State Fault Refusal :=
  .next ((s.setCursor x y).advance 5)

/-- `SETFONTSIZE size` (R177). -/
def execSetFontSize (size : Half) (s : State) : Host.Outcome State Fault Refusal :=
  .next ((s.setFontSize size).advance 3)

/-- `SETCOLOR color` (R178). -/
def execSetColor (color : Byte) (s : State) : Host.Outcome State Fault Refusal :=
  s.orFault (checkCol color) fun code => .next ((s.setColor code).advance 2)

/-! ### The print family (R175) -/

/-- `drawText` at the cursor, in the stored style, from the configured table (R175). -/
def State.printText (s : State) (text : List Byte) : Except FaultCause Memory :=
  drawText s.cfg s.curX.toInt s.curY.toInt text s.cfg.fontBase.toNat s.fontSize.toInt (directiveOfCode s.color) s.fb

/-- `PRINTSTR text` (R180). -/
def execPrintStr (text : List Byte) (s : State) : Host.Outcome State Fault Refusal :=
  if s.cfg.fontPresent then
    s.orFault (s.printText text) fun fb => .next ((s.setFb fb).advance (2 + text.length))
  else .next (s.advance (2 + text.length))

/-- `PRINTCHAR c` (R181). -/
def execPrintChar (c : Byte) (s : State) : Host.Outcome State Fault Refusal :=
  if s.cfg.fontPresent then
    s.orFault (fetchGlyph s.cfg s.cfg.fontBase.toNat c) fun g =>
      .next ((s.setFb (drawGlyph s.curX.toInt s.curY.toInt g s.fontSize.toInt (directiveOfCode s.color) s.fb)).advance 2)
  else .next (s.advance 2)

/-- `PRINTINT num` (R182). -/
def execPrintInt (num : Word32) (s : State) : Host.Outcome State Fault Refusal :=
  if s.cfg.fontPresent then
    s.orFault (formatInt s.cfg num.toInt) fun text =>
      s.orFault (s.printText text) fun fb => .next ((s.setFb fb).advance 5)
  else .next (s.advance 5)

end Sys2Proof.Machine
end

