-- ==== Sys2Proof/Machine/Store.lean ====
section
/-! DEFINITION. The framebuffer store command and the display-sync boundary: `CLEAR`, `SYNC`, `BEGIN` (44_store_sync.md
R200 to R212). -/

namespace Sys2Proof.Machine

/-- The control byte before a command byte (R211). -/
def CONTROL_COMMAND : Byte := 0x80

/-- The control byte before framebuffer data (R211). -/
def CONTROL_DATA : Byte := 0x40

/-- The payload of data transaction `c` of a sync: the data marker and `FB[16c .. 16c + 15]` (R203, R204). -/
def syncPayload (fb : Memory) (c : Nat) : List Byte := CONTROL_DATA :: Memory.readList SYNC_CHUNK (SYNC_CHUNK * c) fb

/-- The payload of the command after a sync (R205). -/
def trailingPayload : List Byte := [CONTROL_COMMAND, 0xA4]

/-- The sixteen bring-up command bytes, in order (R208). -/
def bringUpBytes : List Byte :=
  [0xA8, 0x3F, 0xD3, 0x7F, 0x40, 0xA1, 0xC8, 0xDA, 0x10, 0xA4, 0xA6, 0x8D, 0x14, 0x20, 0x00, 0xAF]

/-- `INIT_PAYLOAD`: each bring-up byte after its control byte (R209). -/
def initPayload : List Byte := bringUpBytes.flatMap fun b => [CONTROL_COMMAND, b]

/-- `CLEAR` (R200). -/
def execClear (s : State) : Host.Outcome State Fault Refusal :=
  .next ((s.setFb (Memory.zeroFill s.fb)).advance 1)

/-- `SYNC` (R203): 64 data transactions in framebuffer order, then the trailing command; the acknowledges are not
read (R206). -/
def execSync (s : State) : Host.Outcome State Fault Refusal :=
  .next ((((List.range SYNC_CHUNKS).foldl (fun t c => t.pushTx (syncPayload t.fb c)) s).pushTx trailingPayload).advance 1)

/-- `BEGIN` (R207, R210): one transaction, and its acknowledge on the response stream. -/
def execBegin (s : State) : Host.Outcome State Fault Refusal :=
  .next (((s.pushTx initPayload).pushRsp (responseByte s.nextAck)).advance 1)

end Sys2Proof.Machine
end

