-- ==== Sys2Proof/Machine/Dispatch.lean ====
section
/-! DEFINITION. One arm per command: its meaning. -/

namespace Sys2Proof.Machine

def exec (i : Instr) (s : State) : Host.Outcome State Fault Refusal :=
  match i with
  | .setPixel x y color => Sys2Proof.Machine.execSetPixel x y color s
  | .getPixel x y => Sys2Proof.Machine.execGetPixel x y s
  | .drawRect x y w h color => Sys2Proof.Machine.execDrawRect x y w h color s
  | .drawChar x y size color glyph => Sys2Proof.Machine.execDrawChar x y size color glyph s
  | .drawStr x y fbase size color text => Sys2Proof.Machine.execDrawStr x y fbase size color text s
  | .drawInt x y fbase size color num => Sys2Proof.Machine.execDrawInt x y fbase size color num s
  | .setCursor x y => Sys2Proof.Machine.execSetCursor x y s
  | .setFontSize size => Sys2Proof.Machine.execSetFontSize size s
  | .setColor color => Sys2Proof.Machine.execSetColor color s
  | .printStr text => Sys2Proof.Machine.execPrintStr text s
  | .printChar c => Sys2Proof.Machine.execPrintChar c s
  | .printInt num => Sys2Proof.Machine.execPrintInt num s
  | .clear => Sys2Proof.Machine.execClear s
  | .sync => Sys2Proof.Machine.execSync s
  | .begin => Sys2Proof.Machine.execBegin s

end Sys2Proof.Machine
end

