-- ==== Sys2Proof/WellFormed.lean ====
section
/-! DEFINITION. Which commands have a packet (30_encoding.md R83, R86), which the configured profiles offer (R4, R104),
and which configurations and launches the spec admits (92_eei_decisions.md, open parameters). -/

namespace Sys2Proof

/-- A text the packet can carry: no 0x00 inside, at most `TEXT_MAX` characters (R86). -/
def textWellFormed (textMax : Nat) (text : List Byte) : Bool :=
  decide (text.length ≤ textMax) && text.all fun b => decide (b ≠ 0)

/-- The command has a packet of its format. The text is the only operand with values that cannot be encoded; every
byte value of a `col` field can (R105 says what it then does). -/
def Instr.wellFormed (textMax : Nat) : Instr → Bool
  | .drawStr _ _ _ _ _ text => textWellFormed textMax text
  | .printStr text => textWellFormed textMax text
  | .setPixel _ _ _ => true
  | .getPixel _ _ => true
  | .drawRect _ _ _ _ _ => true
  | .drawChar _ _ _ _ _ => true
  | .drawInt _ _ _ _ _ _ => true
  | .setCursor _ _ => true
  | .setFontSize _ => true
  | .setColor _ => true
  | .printChar _ => true
  | .printInt _ => true
  | .clear => true
  | .sync => true
  | .begin => true

/-- The profile of an opcode (R88). -/
def Op.profile : Op → Profile
  | .setPixel => .core
  | .getPixel => .core
  | .drawRect => .core
  | .drawChar => .core
  | .drawStr => .layout
  | .drawInt => .layout
  | .setCursor => .layout
  | .setFontSize => .layout
  | .setColor => .layout
  | .printStr => .layout
  | .printChar => .layout
  | .printInt => .layout
  | .clear => .core
  | .sync => .sync
  | .begin => .sync

/-- `PROFILE` offers the profile; `CORE` is always present (R4). -/
def Config.offers (cfg : Config) : Profile → Bool
  | .core => true
  | .layout => cfg.layout
  | .sync => cfg.sync

/-- The command can stand in the stream of an engine of this configuration: it has a packet and its opcode is
assigned (R86, R104). -/
def Instr.admitted (cfg : Config) (i : Instr) : Bool :=
  i.wellFormed cfg.textMax && cfg.offers i.op.profile

/-- The range of the open parameters that their types do not already give (92_eei_decisions.md): `INT_BUF_CAP` is 2 or
more. -/
def Config.wellFormed (cfg : Config) : Bool := decide (2 ≤ cfg.intBufCap)

/-- A command stream the spec admits: `CMD_LEN < 2^32` (R29, R54). -/
def streamWellFormed (cmd : List Byte) : Bool := decide (cmd.length < 2 ^ 32)

end Sys2Proof
end

