-- ==== Sys2Proof/Decode.lean ====
section
/-! DEFINITION. Decoding a command from the bytes at `PC` (30_encoding.md R80, R81, R83 to R107), and the encoder
written from the same format tables (R89 to R100). Multi-byte operands are little-endian (R84). -/

namespace Sys2Proof

/-! ### Opcodes (R88) -/

/-- The opcode byte (R88). -/
def Op.code : Op → Byte
  | .setPixel => 0x10
  | .getPixel => 0x11
  | .drawRect => 0x20
  | .drawChar => 0x30
  | .drawStr => 0x40
  | .drawInt => 0x41
  | .setCursor => 0x42
  | .setFontSize => 0x43
  | .setColor => 0x44
  | .printStr => 0x45
  | .printChar => 0x46
  | .printInt => 0x47
  | .clear => 0x50
  | .sync => 0x51
  | .begin => 0x52

/-- The rows of the opcode map, in the order of R88. -/
def Op.all : List Op :=
  [.setPixel, .getPixel, .drawRect, .drawChar, .drawStr, .drawInt, .setCursor, .setFontSize, .setColor, .printStr,
   .printChar, .printInt, .clear, .sync, .begin]

/-- The row of R88 whose opcode the byte is; none for an unassigned opcode (R104). -/
def opOfByte (b : Byte) : Option Op := Op.all.find? fun o => o.code == b

/-! ### Operand bytes (R83, R84) -/

/-- `le16(b0, b1) = b0 + 256 × b1` as a 16-bit pattern (R84). -/
def le16 (b0 b1 : Byte) : Half := BitVec.ofNat 16 (b0.toNat + 256 * b1.toNat)

/-- `le32(b0, b1, b2, b3) = b0 + 256 × b1 + 65536 × b2 + 16777216 × b3` as a 32-bit pattern (R84). -/
def le32 (b0 b1 b2 b3 : Byte) : Word32 :=
  BitVec.ofNat 32 (b0.toNat + 256 * b1.toNat + 65536 * b2.toNat + 16777216 * b3.toNat)

/-- Byte `k` of a pattern, byte 0 the least significant. -/
def byteOf {w : Nat} (v : BitVec w) (k : Nat) : Byte := v.extractLsb' (8 * k) 8

/-- The two packet bytes of a 16-bit operand, least significant first (R84). -/
def bytes16 (v : Half) : List Byte := [byteOf v 0, byteOf v 1]

/-- The four packet bytes of a 32-bit operand, least significant first (R84). -/
def bytes32 (v : Word32) : List Byte := [byteOf v 0, byteOf v 1, byteOf v 2, byteOf v 3]

/-- The eight packet bytes of a glyph, the top row first (R87). -/
def glyphBytes (g : Glyph) : List Byte := [g.g0, g.g1, g.g2, g.g3, g.g4, g.g5, g.g6, g.g7]

/-- What the scan of a text field finds (R86, R107). -/
inductive TextScan where
  /-- the text without its terminator, and the bytes after the terminator -/
  | found (text rest : List Byte)
  /-- `TEXT_MAX + 1` non-zero bytes in a row -/
  | unterminated
  /-- the stream ends before either -/
  | truncated
deriving DecidableEq, Repr

/-- The loop of R107 over the text field; `fuel` is the number of bytes it may still look at, `TEXT_MAX + 1` at the
start. -/
def scanText : Nat → List Byte → TextScan
  | 0, _ => .unterminated
  | _ + 1, [] => .truncated
  | fuel + 1, b :: bs =>
    if b = 0 then .found [] bs
    else
      match scanText fuel bs with
      | .found text rest => .found (b :: text) rest
      | .unterminated => .unterminated
      | .truncated => .truncated

/-! ### Decoding -/

/-- What the sequencer learns from the bytes at `PC` (R81). -/
inductive DecodeResult where
  /-- a whole command, and the bytes after it -/
  | instr (i : Instr) (rest : List Byte)
  /-- the opcode is unassigned, or of a profile the engine lacks (R104) -/
  | illegalCommand (op : Byte)
  /-- no terminator within `TEXT_MAX + 1` bytes (R86) -/
  | textUnterminated
  /-- the stream ends inside the command (R107) -/
  | truncated
deriving DecidableEq, Repr

/-- A text field and then the command it completes (R86). -/
def decodeText (textMax : Nat) (bs : List Byte) (k : List Byte → Instr) : DecodeResult :=
  match scanText (textMax + 1) bs with
  | .found text rest => .instr (k text) rest
  | .unterminated => .textUnterminated
  | .truncated => .truncated

/-- Format `XYC` (R95), after the opcode. -/
def decodeXYC : List Byte → DecodeResult
  | x0 :: x1 :: y0 :: y1 :: c :: rest => .instr (.setPixel (le16 x0 x1) (le16 y0 y1) c) rest
  | _ => .truncated

/-- Format `XY` (R94), after the opcode. -/
def decodeXY (k : Half → Half → Instr) : List Byte → DecodeResult
  | x0 :: x1 :: y0 :: y1 :: rest => .instr (k (le16 x0 x1) (le16 y0 y1)) rest
  | _ => .truncated

/-- Format `RECT` (R96), after the opcode. -/
def decodeRECT : List Byte → DecodeResult
  | x0 :: x1 :: y0 :: y1 :: w0 :: w1 :: h0 :: h1 :: c :: rest =>
    .instr (.drawRect (le16 x0 x1) (le16 y0 y1) (le16 w0 w1) (le16 h0 h1) c) rest
  | _ => .truncated

/-- Format `GLYPH` (R97), after the opcode. -/
def decodeGLYPH : List Byte → DecodeResult
  | x0 :: x1 :: y0 :: y1 :: s0 :: s1 :: c :: g0 :: g1 :: g2 :: g3 :: g4 :: g5 :: g6 :: g7 :: rest =>
    .instr (.drawChar (le16 x0 x1) (le16 y0 y1) (le16 s0 s1) c ⟨g0, g1, g2, g3, g4, g5, g6, g7⟩) rest
  | _ => .truncated

/-- Format `STR` (R98), after the opcode. -/
def decodeSTR (textMax : Nat) : List Byte → DecodeResult
  | x0 :: x1 :: y0 :: y1 :: b0 :: b1 :: s0 :: s1 :: c :: rest =>
    decodeText textMax rest fun text => .drawStr (le16 x0 x1) (le16 y0 y1) (le16 b0 b1) (le16 s0 s1) c text
  | _ => .truncated

/-- Format `NUM` (R99), after the opcode. -/
def decodeNUM : List Byte → DecodeResult
  | x0 :: x1 :: y0 :: y1 :: b0 :: b1 :: s0 :: s1 :: c :: n0 :: n1 :: n2 :: n3 :: rest =>
    .instr (.drawInt (le16 x0 x1) (le16 y0 y1) (le16 b0 b1) (le16 s0 s1) c (le32 n0 n1 n2 n3)) rest
  | _ => .truncated

/-- Format `H` (R92), after the opcode. -/
def decodeH : List Byte → DecodeResult
  | s0 :: s1 :: rest => .instr (.setFontSize (le16 s0 s1)) rest
  | _ => .truncated

/-- Formats `CB` (R90) and `CH` (R91), after the opcode. -/
def decodeByte (k : Byte → Instr) : List Byte → DecodeResult
  | c :: rest => .instr (k c) rest
  | [] => .truncated

/-- Format `W` (R93), after the opcode. -/
def decodeW : List Byte → DecodeResult
  | n0 :: n1 :: n2 :: n3 :: rest => .instr (.printInt (le32 n0 n1 n2 n3)) rest
  | _ => .truncated

/-- The operands of an assigned opcode, by its format (R88). -/
def decodeOperands (textMax : Nat) (op : Op) (bs : List Byte) : DecodeResult :=
  match op with
  | .setPixel => decodeXYC bs
  | .getPixel => decodeXY .getPixel bs
  | .drawRect => decodeRECT bs
  | .drawChar => decodeGLYPH bs
  | .drawStr => decodeSTR textMax bs
  | .drawInt => decodeNUM bs
  | .setCursor => decodeXY .setCursor bs
  | .setFontSize => decodeH bs
  | .setColor => decodeByte .setColor bs
  | .printStr => decodeText textMax bs .printStr
  | .printChar => decodeByte .printChar bs
  | .printInt => decodeW bs
  | .clear => .instr .clear bs
  | .sync => .instr .sync bs
  | .begin => .instr .begin bs

/-- The command at the head of the bytes from `PC` to the end of the stream (R81). The opcode check uses the opcode
byte alone and comes before any operand is read (R104). -/
def decode (cfg : Config) : List Byte → DecodeResult
  | [] => .truncated
  | b :: bs =>
    match opOfByte b with
    | none => .illegalCommand b
    | some op => if cfg.offers op.profile then decodeOperands cfg.textMax op bs else .illegalCommand b

/-! ### Encoding -/

/-- The operand bytes of a command, in the order of its format (R89 to R100); a text is followed by its terminator. -/
def Instr.operandBytes : Instr → List Byte
  | .setPixel x y color => bytes16 x ++ bytes16 y ++ [color]
  | .getPixel x y => bytes16 x ++ bytes16 y
  | .drawRect x y w h color => bytes16 x ++ bytes16 y ++ bytes16 w ++ bytes16 h ++ [color]
  | .drawChar x y size color glyph => bytes16 x ++ bytes16 y ++ bytes16 size ++ [color] ++ glyphBytes glyph
  | .drawStr x y fbase size color text =>
    bytes16 x ++ bytes16 y ++ bytes16 fbase ++ bytes16 size ++ [color] ++ text ++ [0]
  | .drawInt x y fbase size color num =>
    bytes16 x ++ bytes16 y ++ bytes16 fbase ++ bytes16 size ++ [color] ++ bytes32 num
  | .setCursor x y => bytes16 x ++ bytes16 y
  | .setFontSize size => bytes16 size
  | .setColor color => [color]
  | .printStr text => text ++ [0]
  | .printChar c => [c]
  | .printInt num => bytes32 num
  | .clear => []
  | .sync => []
  | .begin => []

/-- The packet of a command: its opcode and its operands (R80). -/
def encode (i : Instr) : List Byte := i.op.code :: i.operandBytes

/-- The length column of R88. -/
def Instr.length : Instr → Nat
  | .setPixel _ _ _ => 6
  | .getPixel _ _ => 5
  | .drawRect _ _ _ _ _ => 10
  | .drawChar _ _ _ _ _ => 16
  | .drawStr _ _ _ _ _ text => 11 + text.length
  | .drawInt _ _ _ _ _ _ => 14
  | .setCursor _ _ => 5
  | .setFontSize _ => 3
  | .setColor _ => 2
  | .printStr text => 2 + text.length
  | .printChar _ => 2
  | .printInt _ => 5
  | .clear => 1
  | .sync => 1
  | .begin => 1

/-! ### The opcode table's words -/

/-- The bytes of a word numbered as the opcode table numbers it (bit 0 the least significant bit of the first byte),
`nbits` of it, then zeros up to the longest command of the default configuration (R107: `11 + TEXT_MAX`). -/
def tableBytes (nbits w : Nat) : List Byte :=
  (List.range (max ((nbits + 7) / 8) (11 + Config.default.textMax))).map fun k =>
    if 8 * k < nbits then BitVec.ofNat 8 ((w % 2 ^ nbits) >>> (8 * k)) else 0

/-- The command the decoder reads from a word of the opcode table, all operand bits above `nbits` zero, in the default
configuration (every profile present). -/
def decodeTableWord (nbits w : Nat) : Option Instr :=
  match decode Config.default (tableBytes nbits w) with
  | .instr i _ => some i
  | .illegalCommand _ => none
  | .textUnterminated => none
  | .truncated => none

end Sys2Proof
end

