-- ==== Sys2Proof/Machine/Fetch.lean ====
section
/-! DEFINITION. Fetching and decoding the command at `PC` (30_encoding.md R81). -/

namespace Sys2Proof.Machine

/-- What the sequencer does next. -/
inductive Fetched where
  /-- perform this command -/
  | run (i : Instr)
  /-- take this fault, found before the command's rule is reached -/
  | raise (c : FaultCause)
  /-- there is no step -/
  | stop (f : Fault)
deriving DecidableEq, Repr

/-- The bytes of `CMD` from `PC` to the end of the stream (R54). -/
def State.fetchBytes (s : State) : List Byte := s.cmd.drop s.pc

/-- The decoder's answer as the sequencer takes it (R81): a truncated command is no step (R242). -/
def fetchedOf (r : DecodeResult) : Fetched :=
  match r with
  | .instr i _ => .run i
  | .illegalCommand op => .raise (.illegalCommand op)
  | .textUnterminated => .raise .textUnterminated
  | .truncated => .stop .stuck

/-- The head of the sequencing step (R81): no step when `FAULT` is not 0 or when `PC = CMD_LEN`, else the command at
`PC`. -/
def fetch (s : State) : Fetched :=
  if s.fault ≠ 0 then .stop .halted
  else if s.pc = s.cmd.length then .stop .finished
  else if s.cmd.length < s.pc then .stop .fetchOutside
  else fetchedOf (decode s.cfg s.fetchBytes)

/-- The stream with these bytes from offset `pc` on, what stood beside them kept (zeros where the stream was
shorter). -/
def spliceBytes (cmd : List Byte) (pc : Nat) (bs : List Byte) : List Byte :=
  (cmd ++ List.replicate (pc - cmd.length) 0).take pc ++ bs ++ cmd.drop (pc + bs.length)

end Sys2Proof.Machine
end

