-- ==== Sys2Proof/Machine/Step.lean ====
section
/-! DEFINITION. One step of the engine (30_encoding.md R81). -/

namespace Sys2Proof.Machine

/-- One step: perform the command at `PC` whole, or take a fault, or there is no step (R81). -/
def step (s : State) : Host.Outcome State Fault Refusal :=
  match fetch s with
  | .run i => exec i s
  | .raise c => .next (s.takeFault c)
  | .stop f => .fault f

/-- The state with a word of the opcode table, operand bits zero, as the command at `PC`. -/
def State.withFetchWord (s : State) (nbits w : Nat) : State :=
  { s with cmd := spliceBytes s.cmd s.pc (tableBytes nbits w) }

end Sys2Proof.Machine
end

