-- ==== Sys2Proof/Safety.lean ====
section
/-! DEFINITION. The terms claims use. What counts as a safe run: the final, halted and stuck states of 30_encoding.md
R81 and 60_exceptions.md R222, R242, the states a run reaches, and the invariant of the engine's state. What a drawing
command does to the picture, as the set form of 41_rectangle.md R141 and the pixel forms of 42_glyph.md R156 and
43_layout.md R168 say it: a directive for each pixel of the panel. -/

namespace Sys2Proof.Machine

/-! ### Runs -/

/-- The run is over and has not failed: `PC = CMD_LEN` and `FAULT = 0` (R81). -/
def State.final (s : State) : Prop := s.pc = s.cmd.length ∧ s.fault = 0

/-- The engine is halted by a fault (R222). -/
def State.halted (s : State) : Prop := s.fault ≠ 0

/-- The engine waits for bytes that do not come (R242). -/
def State.stuck (s : State) : Prop := step s = .fault .stuck

/-- The states a run passes through. -/
inductive Reaches : State → State → Prop where
  | here (s : State) : Reaches s s
  | after {s t u : State} (head : Reaches s t) (last : step t = .next u) : Reaches s u

/-- A safe run: no state it reaches is halted or stuck. -/
def SafeRun (s : State) : Prop := ∀ t, Reaches s t → ¬ t.halted ∧ ¬ t.stuck

/-- A transaction the transport can carry: to the configured device, 1 to 32 payload bytes (R61, R212). -/
def Transaction.carried (cfg : Config) (t : Transaction) : Prop :=
  t.addr = cfg.devAddr ∧ 1 ≤ t.payload.length ∧ t.payload.length ≤ TRANSPORT_MAX

/-- The invariant of the engine's state: `FB` in canonical form with its addresses in 0 to 1023 (R21, R51); a stream
the spec admits and `PC` in it (R29); `FAULT` a code of R221, with `FAULT_PC` the offset `PC` still holds, or 0 and
`FAULT_PC` 0 (R30, R222); response bytes 0x00 or 0x01 (R60); transactions of 1 to 32 bytes to `DEV_ADDR` (R61). -/
structure State.Inv (s : State) : Prop where
  fb_wf : Memory.wf s.fb = true
  stream : streamWellFormed s.cmd = true
  pc_le : s.pc ≤ s.cmd.length
  fault_code : s.fault.toNat ≤ 5
  fault_pc : s.faultPc = if s.fault = 0 then 0 else s.pc
  rsp_bit : ∀ b ∈ s.rsp, b = 0 ∨ b = 1
  tx_carried : ∀ t ∈ s.tx, t.carried s.cfg

/-! ### Pictures -/

/-- What a directive makes of a pixel's bit (30_encoding.md R85). -/
def onBit (d : Directive) (v : Bool) : Bool :=
  match d with
  | .set => true
  | .clear => false
  | .invert => !v
  | .ignore => v

/-- Bit `b` of byte `a` of the framebuffer. -/
def bitAt (fb : Memory) (a b : Nat) : Bool := (Memory.read fb a).getLsbD b

/-- The picture `D` painted on `fb` gives `fb'`: every bit of every byte is what the directive of its pixel makes of
it, the pixel of bit `b` of byte `a` being column `a mod 128`, row `8 × (a div 128) + b` (40_pixel.md R122). -/
def Paints (fb fb' : Memory) (D : Int → Int → Directive) : Prop :=
  ∀ a b : Nat, b < 8 →
    bitAt fb' a b =
      if a < FB_BYTES then onBit (D ((a % 128 : Nat) : Int) ((8 * (a / 128) + b : Nat) : Int)) (bitAt fb a b)
      else bitAt fb a b

/-- One pixel (R124). -/
def pixelMap (x y : Int) (d : Directive) (px py : Int) : Directive :=
  if px = x ∧ py = y then d else .ignore

/-- A rectangle, half open (R140). -/
def rectMap (x y w h : Int) (d : Directive) (px py : Int) : Directive :=
  if (x ≤ px ∧ px < x + w) ∧ y ≤ py ∧ py < y + h then d else .ignore

/-- A glyph: in the box `[x, x + 6s) × [y, y + 7s)` the color of the cell the pixel lies in (R156), nothing for
`s ≤ 0` (R158). -/
def glyphMap (x y : Int) (g : Glyph) (s : Int) (d : Directive) (px py : Int) : Directive :=
  if (x ≤ px ∧ px < x + 6 * s) ∧ y ≤ py ∧ py < y + 7 * s then
    cellColor (glyphBit g (1 + ((py - y) / s).toNat) (2 + ((px - x) / s).toNat)) d
  else .ignore

/-- A text: in the strip of its boxes, the glyph of the character whose box the pixel lies in (R167, R168). -/
def textMap (cfg : Config) (x y : Int) (text : List Byte) (base : Nat) (s : Int) (d : Directive) (px py : Int) :
    Directive :=
  if x ≤ px ∧ px < x + 6 * s * text.length then
    glyphMap (x + 6 * s * ((px - x) / (6 * s))) y
      (glyphAt cfg base (text.getD ((px - x) / (6 * s)).toNat 0)) s d px py
  else .ignore

end Sys2Proof.Machine
end

