-- ==== Sys2Proof/Certificates/Slice0/Obligations.lean ====
section
/-! DEFINITION. The statements about the engine, for the provers. A statement about drawing takes the framebuffer in
canonical form as a premise; that the form is kept by every step is `StepKeepsInvariant`.

A result statement says what `exec` answers as an equation: the next state is the old one with the named fields
replaced, so every register, log and parameter it does not name is unchanged, and every bit of every byte of `FB` is
given by `Paints`. -/

open Sys2Proof Sys2Proof.Machine

/-! ### Reset -/

/-- R36: the state after reset, for every configuration (so for every value of the `RESET_*` parameters), command
stream and sequence of acknowledges. -/
def Obligations.ResetStateIsAsTabulated : Prop :=
  ∀ (cfg : Config) (cmd : List Byte) (acks : List Bool),
    (∀ a, Memory.read (State.resetOf cfg cmd acks).fb a = 0) ∧
    (State.resetOf cfg cmd acks).curX = cfg.resetCurX ∧ (State.resetOf cfg cmd acks).curY = cfg.resetCurY ∧
    (State.resetOf cfg cmd acks).fontSize = cfg.resetFontSize ∧ (State.resetOf cfg cmd acks).color = cfg.resetColor ∧
    (State.resetOf cfg cmd acks).pc = 0 ∧ (State.resetOf cfg cmd acks).fault = 0 ∧
    (State.resetOf cfg cmd acks).faultPc = 0 ∧ (State.resetOf cfg cmd acks).rsp = [] ∧
    (State.resetOf cfg cmd acks).tx = [] ∧ (State.resetOf cfg cmd acks).cfg = cfg

/-- R250, R252, R232: the reset event takes any state, halted or not, to the reset state of the same configuration and
command stream, where the engine is not halted. -/
def Obligations.ResetEventLeavesHaltAndKeepsConfiguration : Prop :=
  ∀ (s : State) (acks : List Bool),
    s.afterReset acks = State.resetOf s.cfg s.cmd acks ∧ (s.afterReset acks).cfg = s.cfg ∧
    (s.afterReset acks).cmd = s.cmd ∧ ¬ (s.afterReset acks).halted

/-- The invariant holds in the reset state of every configuration with a stream the spec admits, and in
`State.reset` (whose configuration and empty stream are the model's choice, log 2, 3, 5). -/
def Obligations.InvariantAtReset : Prop :=
  (∀ (cfg : Config) (cmd : List Byte) (acks : List Bool),
    streamWellFormed cmd = true → (State.resetOf cfg cmd acks).Inv) ∧ State.reset.Inv

/-! ### Encoding and sequencing -/

/-- Decoding the packet of any command the configuration admits, whatever bytes follow it, gives that command and
those bytes: no operand bit is dropped. -/
def Obligations.DecodeOfEncodeIsTheCommand : Prop :=
  ∀ (cfg : Config) (i : Instr) (rest : List Byte),
    i.admitted cfg = true → decode cfg (encode i ++ rest) = .instr i rest

/-- The other direction: whatever the decoder reads as a command is that command's packet, the command is admitted,
and the bytes it leaves are those after the packet. -/
def Obligations.DecodedBytesAreThePacket : Prop :=
  ∀ (cfg : Config) (bs : List Byte) (i : Instr) (rest : List Byte),
    decode cfg bs = .instr i rest → bs = encode i ++ rest ∧ i.admitted cfg = true

/-- R88: the packet of a command is as long as the length column says. -/
def Obligations.PacketLengthIsTheTabulatedLength : Prop :=
  ∀ i : Instr, (encode i).length = i.length ∧ (encode i).head? = some i.op.code

/-- Packets written out from the format tables of R89 to R100 decode to their commands: the examples of R108, one for
each of the fifteen commands, and then, for each command with an operand of two bytes or more, a packet whose operand
bytes are 01, 02, 03, ... in the order of their offsets, so that no two operands or bytes can stand for each other. -/
def Obligations.WrittenOutPacketsDecode : Prop :=
  decode Config.default [0x10, 0x05, 0x00, 0x09, 0x00, 0x00] = .instr (.setPixel 5 9 0) [] ∧
  decode Config.default [0x11, 0x05, 0x00, 0x09, 0x00] = .instr (.getPixel 5 9) [] ∧
  decode Config.default [0x20, 0x7E, 0x00, 0x06, 0x00, 0x04, 0x00, 0x04, 0x00, 0x00] =
    .instr (.drawRect 126 6 4 4 0) [] ∧
  decode Config.default
      [0x30, 0x00, 0x00, 0x00, 0x00, 0x01, 0x00, 0x00, 0xFF, 0x30, 0x48, 0x84, 0xFC, 0x84, 0x84, 0x03] =
    .instr (.drawChar 0 0 1 0 ⟨0xFF, 0x30, 0x48, 0x84, 0xFC, 0x84, 0x84, 0x03⟩) [] ∧
  decode Config.default [0x40, 0x0A, 0x00, 0x08, 0x00, 0x00, 0x00, 0x02, 0x00, 0x00, 0x41, 0x42, 0x00] =
    .instr (.drawStr 10 8 0 2 0 [0x41, 0x42]) [] ∧
  decode Config.default [0x41, 0x04, 0x00, 0x10, 0x00, 0x00, 0x00, 0x01, 0x00, 0x00, 0xF4, 0xFF, 0xFF, 0xFF] =
    .instr (.drawInt 4 16 0 1 0 (BitVec.ofInt 32 (-12))) [] ∧
  decode Config.default [0x42, 0x04, 0x00, 0x10, 0x00] = .instr (.setCursor 4 16) [] ∧
  decode Config.default [0x43, 0x01, 0x00] = .instr (.setFontSize 1) [] ∧
  decode Config.default [0x44, 0x00] = .instr (.setColor 0) [] ∧
  decode Config.default [0x45, 0x41, 0x42, 0x00] = .instr (.printStr [0x41, 0x42]) [] ∧
  decode Config.default [0x46, 0x41] = .instr (.printChar 0x41) [] ∧
  decode Config.default [0x47, 0xF4, 0xFF, 0xFF, 0xFF] = .instr (.printInt (BitVec.ofInt 32 (-12))) [] ∧
  decode Config.default [0x50] = .instr .clear [] ∧
  decode Config.default [0x51] = .instr .sync [] ∧
  decode Config.default [0x52] = .instr .begin [] ∧
  decode Config.default [0x10, 0x01, 0x02, 0x03, 0x04, 0x05] = .instr (.setPixel 0x0201 0x0403 0x05) [] ∧
  decode Config.default [0x11, 0x01, 0x02, 0x03, 0x04] = .instr (.getPixel 0x0201 0x0403) [] ∧
  decode Config.default [0x20, 0x01, 0x02, 0x03, 0x04, 0x05, 0x06, 0x07, 0x08, 0x09] =
    .instr (.drawRect 0x0201 0x0403 0x0605 0x0807 0x09) [] ∧
  decode Config.default
      [0x30, 0x01, 0x02, 0x03, 0x04, 0x05, 0x06, 0x07, 0x08, 0x09, 0x0A, 0x0B, 0x0C, 0x0D, 0x0E, 0x0F] =
    .instr (.drawChar 0x0201 0x0403 0x0605 0x07 ⟨0x08, 0x09, 0x0A, 0x0B, 0x0C, 0x0D, 0x0E, 0x0F⟩) [] ∧
  decode Config.default [0x40, 0x01, 0x02, 0x03, 0x04, 0x05, 0x06, 0x07, 0x08, 0x09, 0x0A, 0x0B, 0x0C, 0x00] =
    .instr (.drawStr 0x0201 0x0403 0x0605 0x0807 0x09 [0x0A, 0x0B, 0x0C]) [] ∧
  decode Config.default [0x41, 0x01, 0x02, 0x03, 0x04, 0x05, 0x06, 0x07, 0x08, 0x09, 0x0A, 0x0B, 0x0C, 0x0D] =
    .instr (.drawInt 0x0201 0x0403 0x0605 0x0807 0x09 0x0D0C0B0A) [] ∧
  decode Config.default [0x42, 0x01, 0x02, 0x03, 0x04] = .instr (.setCursor 0x0201 0x0403) [] ∧
  decode Config.default [0x43, 0x01, 0x02] = .instr (.setFontSize 0x0201) [] ∧
  decode Config.default [0x45, 0x01, 0x02, 0x03, 0x00] = .instr (.printStr [0x01, 0x02, 0x03]) [] ∧
  decode Config.default [0x47, 0x01, 0x02, 0x03, 0x04] = .instr (.printInt 0x04030201) []

/-- R81: when the engine is not halted and the bytes from `PC` on begin with the packet of a command the configuration
admits, a step is `exec` of that command (which itself advances `PC` by the command's length, or takes a fault). -/
def Obligations.StepRunsTheDecodedCommand : Prop :=
  ∀ (s : State) (i : Instr) (rest : List Byte),
    s.fault = 0 → i.admitted s.cfg = true → s.cmd.drop s.pc = encode i ++ rest → step s = exec i s

/-- R104, R224: an opcode that R88 does not list, or whose profile is not present, raises `IllegalCommand`, whatever
bytes follow; only `FAULT` and `FAULT_PC` change. -/
def Obligations.UnassignedOpcodeRaisesIllegalCommand : Prop :=
  ∀ (s : State) (b : Byte) (bs : List Byte),
    s.fault = 0 → s.cmd.drop s.pc = b :: bs →
    ((b.toNat ≤ 0x0F ∨ (0x12 ≤ b.toNat ∧ b.toNat ≤ 0x1F) ∨ (0x21 ≤ b.toNat ∧ b.toNat ≤ 0x2F) ∨
        (0x31 ≤ b.toNat ∧ b.toNat ≤ 0x3F) ∨ (0x48 ≤ b.toNat ∧ b.toNat ≤ 0x4F) ∨ 0x53 ≤ b.toNat) ∨
      ((0x40 ≤ b.toNat ∧ b.toNat ≤ 0x47) ∧ s.cfg.layout = false) ∨
      ((b.toNat = 0x51 ∨ b.toNat = 0x52) ∧ s.cfg.sync = false)) →
    step s = .next { s with fault := 1, faultPc := s.pc }

/-- R225: a `DRAWSTR` or `PRINTSTR` whose text field has `TEXT_MAX + 1` non-zero bytes in a row raises
`TextUnterminated`, with a font or without, whatever follows. -/
def Obligations.UnterminatedTextRaisesTextUnterminated : Prop :=
  ∀ (s : State) (header text rest : List Byte),
    s.fault = 0 → s.cfg.layout = true → text.length = s.cfg.textMax + 1 → (∀ b ∈ text, b ≠ 0) →
    (s.cmd.drop s.pc = 0x45 :: (text ++ rest) ∨
      (header.length = 9 ∧ s.cmd.drop s.pc = 0x40 :: (header ++ text ++ rest))) →
    step s = .next { s with fault := 2, faultPc := s.pc }

/-- R242: the engine is stuck exactly when it is not halted and the bytes from `PC` to the end of the stream are the
beginning of a command but not all of it; the state is then neither halted nor final. -/
def Obligations.StuckExactlyOnATruncatedCommand : Prop :=
  ∀ s : State,
    (step s = .fault .stuck ↔
      s.fault = 0 ∧ s.cmd.drop s.pc ≠ [] ∧
      ∃ (i : Instr) (missing : List Byte),
        i.admitted s.cfg = true ∧ missing ≠ [] ∧ s.cmd.drop s.pc ++ missing = encode i) ∧
    (step s = .fault .stuck → ¬ s.halted ∧ ¬ s.final)

/-- R81: a halted engine and a finished run have no step. -/
def Obligations.HaltedAndFinishedHaveNoStep : Prop :=
  ∀ s : State, (s.halted → step s = .fault .halted) ∧ (s.final → step s = .fault .finished)

/-- R81, R261: in a state that meets the invariant the engine takes a step, or is halted, finished or stuck; it refuses
nothing and never fetches outside the stream. -/
def Obligations.EveryStateStepsOrIsHaltedFinishedOrStuck : Prop :=
  ∀ s : State, s.Inv →
    (step s = .fault .halted ∧ s.halted) ∨ (step s = .fault .finished ∧ s.final) ∨ step s = .fault .stuck ∨
    ∃ t, step s = .next t

/-- R81: a step that leaves `FAULT` at 0 completed the whole command at `PC` and advanced `PC` by its length. -/
def Obligations.CompletedStepAdvancesByTheCommand : Prop :=
  ∀ s t : State, step s = .next t → t.fault = 0 →
    ∃ (i : Instr) (rest : List Byte),
      s.cmd.drop s.pc = encode i ++ rest ∧ i.admitted s.cfg = true ∧ exec i s = .next t ∧
      t.pc = s.pc + (encode i).length ∧ t.pc ≤ s.cmd.length

/-- R222, R223: a step that ends with `FAULT` set wrote `FAULT`, one of the codes 1 to 5, and `FAULT_PC`, the offset of
the faulting command, and changed nothing else; from there the engine has no step. -/
def Obligations.FaultsArePreciseAndHalt : Prop :=
  ∀ s t : State, step s = .next t → t.fault ≠ 0 →
    s.fault = 0 ∧ 1 ≤ t.fault.toNat ∧ t.fault.toNat ≤ 5 ∧ t = { s with fault := t.fault, faultPc := s.pc } ∧
    step t = .fault .halted

/-! ### Whole-machine rules -/

/-- The invariant of the engine's state is kept by every step, from every state that meets it. -/
def Obligations.StepKeepsInvariant : Prop :=
  ∀ s t : State, s.Inv → step s = .next t → t.Inv

/-- R81, R222, R232: along a run the invariant is kept, `PC` never moves backwards, what `RSP` and `TX` hold stays at
their head, and a halted engine stays exactly as it is: only reset leaves that state. -/
def Obligations.RunsKeepTheInvariantAndHaltForGood : Prop :=
  ∀ s t : State, Reaches s t →
    (s.Inv → t.Inv) ∧ s.pc ≤ t.pc ∧ s.rsp <+: t.rsp ∧ s.tx <+: t.tx ∧ (s.halted → t = s)

/-- R28, R37, R69: no step writes the configuration, the font, the command stream or the transport's answers. -/
def Obligations.StepNeverWritesItsParameters : Prop :=
  ∀ s t : State, step s = .next t → t.cfg = s.cfg ∧ t.cmd = s.cmd ∧ t.acks = s.acks

/-- R31: `RSP` and `TX` are append-only: a step appends at most one byte to `RSP`, and to `TX` only transactions to
`DEV_ADDR` of 1 to 32 bytes. -/
def Obligations.OutputLogsOnlyGrow : Prop :=
  ∀ s t : State, step s = .next t →
    (∃ bs, t.rsp = s.rsp ++ bs ∧ bs.length ≤ 1) ∧
    ∃ ts, t.tx = s.tx ++ ts ∧ ∀ u ∈ ts, u.addr = s.cfg.devAddr ∧ 1 ≤ u.payload.length ∧ u.payload.length ≤ 32

/-- R60: only `GETPIXEL` and `BEGIN` append to `RSP`, each exactly one byte, 0x01 for true and 0x00 for false; only
`SYNC` and `BEGIN` append to `TX`. -/
def Obligations.OnlyGetpixelAndBeginRespond : Prop :=
  ∀ (i : Instr) (s t : State), exec i s = .next t →
    (t.rsp = match i with
      | .getPixel x y => s.rsp ++ [if readPixel x.toInt y.toInt s.fb then 1 else 0]
      | .begin => s.rsp ++ [if s.nextAck then 1 else 0]
      | _ => s.rsp) ∧
    (i ≠ .sync → i ≠ .begin → t.tx = s.tx)

/-- R26: only the three setters write the cursor and style registers, each only its own. -/
def Obligations.CursorWrittenOnlyBySetters : Prop :=
  ∀ (i : Instr) (s t : State), exec i s = .next t →
    ((∀ x y, i ≠ .setCursor x y) → t.curX = s.curX ∧ t.curY = s.curY) ∧
    ((∀ n, i ≠ .setFontSize n) → t.fontSize = s.fontSize) ∧
    ((∀ c, i ≠ .setColor c) → t.color = s.color)

/-- R27: the direct drawing commands neither read nor write the cursor and style registers: started with any other
values in them, they answer the same next state but for those values. -/
def Obligations.DirectDrawingIsIndependentOfCursor : Prop :=
  ∀ (i : Instr) (s t : State) (cx cy sz : Half) (col : BitVec 2),
    (i.op = .setPixel ∨ i.op = .drawRect ∨ i.op = .drawChar ∨ i.op = .drawStr ∨ i.op = .drawInt) →
    exec i s = .next t →
    exec i { s with curX := cx, curY := cy, fontSize := sz, color := col } =
      .next { t with curX := cx, curY := cy, fontSize := sz, color := col } ∧
    t.curX = s.curX ∧ t.curY = s.curY ∧ t.fontSize = s.fontSize ∧ t.color = s.color

/-! ### The pixel -/

/-- R122: the translator is a bijection between the pixels in range and the pairs of a byte address 0 to 1023 and a
bit 0 to 7, with the inverse the rule gives; the mask is the one-hot decode of the bit. -/
def Obligations.TranslatorIsABijection : Prop :=
  (∀ x y : Int, 0 ≤ x → x < 128 → 0 ≤ y → y < 64 →
    byteIndex x y < 1024 ∧ pagePosition y < 8 ∧
    ((byteIndex x y % 128 : Nat) : Int) = x ∧
    ((8 * (byteIndex x y / 128) + pagePosition y : Nat) : Int) = y ∧
    (bitMask y).toNat = 2 ^ pagePosition y) ∧
  (∀ a b : Nat, a < 1024 → b < 8 →
    inRange ((a % 128 : Nat) : Int) ((8 * (a / 128) + b : Nat) : Int) = true ∧
    byteIndex ((a % 128 : Nat) : Int) ((8 * (a / 128) + b : Nat) : Int) = a ∧
    pagePosition ((8 * (a / 128) + b : Nat) : Int) = b)

/-- R126: the laws of the write operator and the read. -/
def Obligations.PixelWriteReadLaws : Prop :=
  ∀ (fb : Memory), Memory.wf fb = true →
    (∀ x y : Int, 0 ≤ x → x < 128 → 0 ≤ y → y < 64 →
      readPixel x y (writePixel x y .set fb) = true ∧ readPixel x y (writePixel x y .clear fb) = false ∧
      readPixel x y (writePixel x y .invert fb) = !readPixel x y fb ∧
      (∀ (d : Directive) (x' y' : Int), ¬ (x' = x ∧ y' = y) →
        readPixel x' y' (writePixel x y d fb) = readPixel x' y' fb)) ∧
    (∀ (d : Directive) (x y : Int), (x < 0 ∨ 128 ≤ x ∨ y < 0 ∨ 64 ≤ y) →
      writePixel x y d fb = fb ∧ readPixel x y fb = false) ∧
    (∀ x y : Int, writePixel x y .ignore fb = fb ∧ readPixel x y (Memory.zeroFill fb) = false)

/-- R127, R124: `SETPIXEL` with a legal `col` byte completes, changes the one pixel as its directive says, and leaves
every other bit of every byte, every register and every log as they were; every byte but the pixel's own is
unchanged, and all of them when the pixel is off the panel. -/
def Obligations.SetPixelChangesOnePixel : Prop :=
  ∀ (s : State) (x y : Half) (color : Byte), Memory.wf s.fb = true → color.toNat ≤ 3 →
    ∃ fb', exec (.setPixel x y color) s = .next { s with fb := fb', pc := s.pc + 6 } ∧
      Paints s.fb fb' (pixelMap x.toInt y.toInt (directiveOfCode (colCode color))) ∧
      ∀ a, ¬ (inRange x.toInt y.toInt = true ∧ a = byteIndex x.toInt y.toInt) →
        Memory.read fb' a = Memory.read s.fb a

/-- R128, R125: `GETPIXEL`, opcode 0x11, completes and appends one byte to `RSP`: 0x01 when the coordinates are in
range and the pixel's bit, row `y mod 8` of byte `(y div 8) × 128 + x`, is set, 0x00 otherwise; nothing else but `PC`
changes. -/
def Obligations.GetPixelAnswersThePixel : Prop :=
  ∀ (s : State) (x y : Half),
    encode (.getPixel x y) = 0x11 :: (bytes16 x ++ bytes16 y) ∧
    exec (.getPixel x y) s = .next { s with
      rsp := s.rsp ++
        [if (0 ≤ x.toInt ∧ x.toInt < 128 ∧ 0 ≤ y.toInt ∧ y.toInt < 64) ∧
            bitAt s.fb (y.toInt.toNat / 8 * 128 + x.toInt.toNat) (y.toInt.toNat % 8) = true then 1 else 0]
      pc := s.pc + 5 }

/-! ### Rectangles and glyphs -/

/-- R142, R141, R143: `DRAWRECT` with a legal `col` byte completes and applies the directive to exactly the cells of
the half-open rectangle on the panel, none when a side is not positive; nothing else but `PC` changes. -/
def Obligations.DrawRectPaintsTheRectangle : Prop :=
  ∀ (s : State) (x y w h : Half) (color : Byte), Memory.wf s.fb = true → color.toNat ≤ 3 →
    ∃ fb', exec (.drawRect x y w h color) s = .next { s with fb := fb', pc := s.pc + 10 } ∧
      Paints s.fb fb' (rectMap x.toInt y.toInt w.toInt h.toInt (directiveOfCode (colCode color))) ∧
      ((w.toInt ≤ 0 ∨ h.toInt ≤ 0) → fb' = s.fb)

/-- R140: the framebuffer a `DRAWRECT` leaves is the one the loops of the write operator leave, over all cells of
`[x, x + w) × [y, y + h)`, rows outside. -/
def Obligations.DrawRectIsTheLoopOfWritePixel : Prop :=
  ∀ (s : State) (x y w h : Half) (color : Byte), Memory.wf s.fb = true → color.toNat ≤ 3 →
    exec (.drawRect x y w h color) s = .next { s with
      fb := (span y.toInt (y.toInt + h.toInt)).foldl
        (fun fb cy => (span x.toInt (x.toInt + w.toInt)).foldl
          (fun fb cx => writePixel cx cy (directiveOfCode (colCode color)) fb) fb) s.fb
      pc := s.pc + 10 }

/-- R152: the directive a cell is painted with. -/
def Obligations.CellColorTable : Prop :=
  ∀ (bit : Bool) (d : Directive),
    cellColor bit d =
      if d = .invert then .invert else if bit = true ∧ (d = .set ∨ d = .clear) then d else .ignore

/-- R157, R156, R158: `DRAWCHAR` with a legal `col` byte completes and paints the box `[x, x + 6s) × [y, y + 7s)` with
the color of the cell each pixel lies in; a size that is not positive draws nothing. R150, R151: the source bit of cell
`(i, j)` is bit `7 − j` of row `i`, and row `i` is the glyph's byte `g_i`, row 0 the top. -/
def Obligations.DrawCharPaintsTheGlyph : Prop :=
  (∀ (g : Glyph) (i j : Nat), i < 8 → j < 8 →
    [g.g0, g.g1, g.g2, g.g3, g.g4, g.g5, g.g6, g.g7][i]? = some (glyphRow g i) ∧
    glyphBit g i j = (glyphRow g i).getLsbD (7 - j)) ∧
  ∀ (s : State) (x y size : Half) (color : Byte) (g : Glyph), Memory.wf s.fb = true → color.toNat ≤ 3 →
    ∃ fb', exec (.drawChar x y size color g) s = .next { s with fb := fb', pc := s.pc + 16 } ∧
      Paints s.fb fb' (glyphMap x.toInt y.toInt g size.toInt (directiveOfCode (colCode color))) ∧
      (size.toInt ≤ 0 → fb' = s.fb)

/-- R151: only bits 5 to 0 of glyph rows 1 to 7 are read: two glyphs that agree there draw the same. -/
def Obligations.GlyphPaddingHasNoEffect : Prop :=
  ∀ (s : State) (x y size : Half) (color : Byte) (g g' : Glyph),
    (∀ i : Nat, 1 ≤ i → i ≤ 7 → (glyphRow g i).extractLsb' 0 6 = (glyphRow g' i).extractLsb' 0 6) →
    exec (.drawChar x y size color g) s = exec (.drawChar x y size color g') s

/-- R153: with `INVERT` a `DRAWCHAR` of positive size toggles its whole box, whatever the glyph bytes are. -/
def Obligations.InvertGlyphTogglesTheWholeBox : Prop :=
  ∀ (s : State) (x y size : Half) (g : Glyph), Memory.wf s.fb = true → 1 ≤ size.toInt →
    ∃ fb', exec (.drawChar x y size 2 g) s = .next { s with fb := fb', pc := s.pc + 16 } ∧
      Paints s.fb fb' (rectMap x.toInt y.toInt (6 * size.toInt) (7 * size.toInt) .invert)

/-- R59: `SETPIXEL`, `DRAWRECT` and `DRAWCHAR` twice in a row: with `INVERT` the framebuffer is restored, with the
other directives the second changes nothing. -/
def Obligations.DrawingTwiceRestoresOrRepeats : Prop :=
  ∀ (s t u : State) (i : Instr) (color : Byte), Memory.wf s.fb = true → color.toNat ≤ 3 →
    ((∃ x y, i = .setPixel x y color) ∨ (∃ x y w h, i = .drawRect x y w h color) ∨
      ∃ x y size g, i = .drawChar x y size color g) →
    exec i s = .next t → exec i t = .next u →
    (color = 2 → u.fb = s.fb) ∧ (color ≠ 2 → u.fb = t.fb)

/-- R126, R154: with `IGNORE` no drawing command that completes changes the framebuffer. -/
def Obligations.IgnoreNeverMutates : Prop :=
  ∀ (s t : State) (i : Instr),
    ((∃ x y, i = .setPixel x y 3) ∨ (∃ x y w h, i = .drawRect x y w h 3) ∨ (∃ x y n g, i = .drawChar x y n 3 g) ∨
      (∃ x y b n text, i = .drawStr x y b n 3 text) ∨ (∃ x y b n num, i = .drawInt x y b n 3 num) ∨
      (s.color = 3 ∧ (i.op = .printStr ∨ i.op = .printChar ∨ i.op = .printInt))) →
    exec i s = .next t → t.fb = s.fb

/-! ### Text and numbers -/

/-- R166: a glyph fetch answers the eight bytes of the font from `base + 8c` on, or raises `FontBounds` when the last
of them is beyond the `FONT` space. -/
def Obligations.FetchGlyphReadsEightFontBytes : Prop :=
  ∀ (cfg : Config) (base : Nat) (c : Byte),
    (base + 8 * c.toNat + 7 < cfg.fontBytes →
      fetchGlyph cfg base c = .ok (glyphAt cfg base c) ∧
        ∀ i : Nat, i < 8 → cfg.font[base + 8 * c.toNat + i]? = some (glyphRow (glyphAt cfg base c) i)) ∧
    (cfg.fontBytes ≤ base + 8 * c.toNat + 7 → fetchGlyph cfg base c = .error (.fontBounds c))

/-- R169, R167, R168: `DRAWSTR` with a legal `col` byte and every glyph inside the font completes and paints each
character's glyph, the k-th at `x + 6 × size × k`; it does not depend on `FONT_PRESENT`; nothing else but `PC`
changes. -/
def Obligations.DrawStrPaintsTheText : Prop :=
  ∀ (s : State) (x y fbase size : Half) (color : Byte) (text : List Byte),
    Memory.wf s.fb = true → color.toNat ≤ 3 →
    (∀ c ∈ text, fbase.toNat + 8 * c.toNat + 7 < s.cfg.fontBytes) →
    ∃ fb', exec (.drawStr x y fbase size color text) s =
        .next { s with fb := fb', pc := s.pc + (11 + text.length) } ∧
      Paints s.fb fb'
        (textMap s.cfg x.toInt y.toInt text fbase.toNat size.toInt (directiveOfCode (colCode color)))

/-- R173: `DRAWINT` with a legal `col` byte, a number that fits the formatter and every glyph of its decimal text inside
the font completes and paints that text; nothing else but `PC` changes. -/
def Obligations.DrawIntPaintsTheDecimalText : Prop :=
  ∀ (s : State) (x y fbase size : Half) (color : Byte) (num : Word32),
    Memory.wf s.fb = true → color.toNat ≤ 3 → (decimal num.toInt).length + 1 ≤ s.cfg.intBufCap →
    (∀ c ∈ decimal num.toInt, fbase.toNat + 8 * c.toNat + 7 < s.cfg.fontBytes) →
    ∃ fb', exec (.drawInt x y fbase size color num) s = .next { s with fb := fb', pc := s.pc + 14 } ∧
      Paints s.fb fb'
        (textMap s.cfg x.toInt y.toInt (decimal num.toInt) fbase.toNat size.toInt (directiveOfCode (colCode color)))

/-- R170, R172: the decimal text is canonical: "0" for zero; for a positive number digit codes 0x30 to 0x39 whose value
is the number, the first not '0'; for a negative number the sign 0x2D and the text of its magnitude. That the codes are
ASCII is the spec's general knowledge (93_implementation_defined.md G1, log 14). -/
def Obligations.DecimalTextIsCanonical : Prop :=
  decimal 0 = [0x30] ∧
  (∀ n : Int, 0 < n →
    (∀ c ∈ decimal n, 0x30 ≤ c.toNat ∧ c.toNat ≤ 0x39) ∧
    (∃ c cs, decimal n = c :: cs ∧ c ≠ 0x30) ∧
    (decimal n).foldl (fun v c => 10 * v + ((c.toNat : Int) - 0x30)) 0 = n) ∧
  (∀ n : Int, n < 0 → decimal n = 0x2D :: decimal (-n))

/-- R171: `formatInt` answers the decimal text, or raises `FormatOverflow` when the text and its terminator exceed the
capacity; with the default capacity 11 it raises exactly for the 32-bit numbers from −2147483648 to −1000000000, with 12
or more for none. -/
def Obligations.FormatterCapacityRange : Prop :=
  ∀ (cfg : Config) (num : Word32),
    formatInt cfg num.toInt =
      (if (decimal num.toInt).length + 1 > cfg.intBufCap then .error (.formatOverflow num.toInt)
        else .ok (decimal num.toInt)) ∧
    (cfg.intBufCap = 11 → ((∃ e, formatInt cfg num.toInt = .error e) ↔ num.toInt ≤ -1000000000)) ∧
    (12 ≤ cfg.intBufCap → formatInt cfg num.toInt = .ok (decimal num.toInt))

/-! ### Setters and the print family -/

/-- R176: `SETCURSOR`, opcode 0x42, completes for every operand and writes `CUR_X` and `CUR_Y` only. -/
def Obligations.SetCursorWritesTheCursor : Prop :=
  ∀ (s : State) (x y : Half),
    encode (.setCursor x y) = 0x42 :: (bytes16 x ++ bytes16 y) ∧
    exec (.setCursor x y) s = .next { s with curX := x, curY := y, pc := s.pc + 5 }

/-- R177: `SETFONTSIZE`, opcode 0x43, completes for every operand, zero and negative sizes stored as given, and writes
`FONT_SIZE` only. -/
def Obligations.SetFontSizeWritesTheSize : Prop :=
  ∀ (s : State) (size : Half),
    encode (.setFontSize size) = 0x43 :: bytes16 size ∧
    exec (.setFontSize size) s = .next { s with fontSize := size, pc := s.pc + 3 }

/-- R178, R85: `SETCOLOR` with a legal `col` byte completes and writes the byte's bits 1:0 to `COLOR` only. -/
def Obligations.SetColorWritesTheCode : Prop :=
  ∀ (s : State) (color : Byte), color.toNat ≤ 3 →
    exec (.setColor color) s = .next { s with color := BitVec.ofNat 2 color.toNat, pc := s.pc + 2 }

/-- R85: the directive each 2-bit code stands for. -/
def Obligations.ColorCodesNameTheDirectives : Prop :=
  directiveOfCode 0 = .set ∧ directiveOfCode 1 = .clear ∧ directiveOfCode 2 = .invert ∧ directiveOfCode 3 = .ignore

/-- R180: `PRINTSTR` with a font whose table holds every character completes and paints the text at the cursor in the
stored style from the configured table; the registers are unchanged. -/
def Obligations.PrintStrPaintsAtTheCursor : Prop :=
  ∀ (s : State) (text : List Byte),
    Memory.wf s.fb = true → s.cfg.fontPresent = true →
    (∀ c ∈ text, s.cfg.fontBase.toNat + 8 * c.toNat + 7 < s.cfg.fontBytes) →
    ∃ fb', exec (.printStr text) s = .next { s with fb := fb', pc := s.pc + (2 + text.length) } ∧
      Paints s.fb fb'
        (textMap s.cfg s.curX.toInt s.curY.toInt text s.cfg.fontBase.toNat s.fontSize.toInt (directiveOfCode s.color))

/-- R181: `PRINTCHAR` with a font whose table holds the character completes and paints its glyph at the cursor in the
stored style; the registers are unchanged. -/
def Obligations.PrintCharPaintsAtTheCursor : Prop :=
  ∀ (s : State) (c : Byte),
    Memory.wf s.fb = true → s.cfg.fontPresent = true →
    s.cfg.fontBase.toNat + 8 * c.toNat + 7 < s.cfg.fontBytes →
    ∃ g fb', fetchGlyph s.cfg s.cfg.fontBase.toNat c = .ok g ∧
      exec (.printChar c) s = .next { s with fb := fb', pc := s.pc + 2 } ∧
      Paints s.fb fb' (glyphMap s.curX.toInt s.curY.toInt g s.fontSize.toInt (directiveOfCode s.color))

/-- R182: `PRINTINT` with a font, a number that fits the formatter and a table that holds its text completes and paints
that text at the cursor in the stored style; the registers are unchanged. -/
def Obligations.PrintIntPaintsAtTheCursor : Prop :=
  ∀ (s : State) (num : Word32),
    Memory.wf s.fb = true → s.cfg.fontPresent = true → (decimal num.toInt).length + 1 ≤ s.cfg.intBufCap →
    (∀ c ∈ decimal num.toInt, s.cfg.fontBase.toNat + 8 * c.toNat + 7 < s.cfg.fontBytes) →
    ∃ fb', exec (.printInt num) s = .next { s with fb := fb', pc := s.pc + 5 } ∧
      Paints s.fb fb'
        (textMap s.cfg s.curX.toInt s.curY.toInt (decimal num.toInt) s.cfg.fontBase.toNat s.fontSize.toInt
          (directiveOfCode s.color))

/-- R175: with no font configured the print commands complete, change nothing but `PC`, and raise nothing, whatever
the operand. -/
def Obligations.PrintWithoutFontDoesNothing : Prop :=
  ∀ (s : State), s.cfg.fontPresent = false →
    (∀ text, exec (.printStr text) s = .next { s with pc := s.pc + (2 + text.length) }) ∧
    (∀ c, exec (.printChar c) s = .next { s with pc := s.pc + 2 }) ∧
    (∀ num, exec (.printInt num) s = .next { s with pc := s.pc + 5 })

/-- R175, R180 to R182: with a font, a print command leaves the framebuffer and the fault registers that the direct
command leaves with the cursor registers and the configured table as its operands. -/
def Obligations.PrintRoutesToTheDirectCommands : Prop :=
  ∀ (s : State), s.cfg.fontPresent = true →
    (∀ text t, exec (.drawStr s.curX s.curY s.cfg.fontBase s.fontSize (s.color.setWidth 8) text) s = .next t →
      ∃ u, exec (.printStr text) s = .next u ∧ u.fb = t.fb ∧ u.fault = t.fault ∧ u.faultPc = t.faultPc) ∧
    (∀ num t, exec (.drawInt s.curX s.curY s.cfg.fontBase s.fontSize (s.color.setWidth 8) num) s = .next t →
      ∃ u, exec (.printInt num) s = .next u ∧ u.fb = t.fb ∧ u.fault = t.fault ∧ u.faultPc = t.faultPc) ∧
    (∀ c g t, fetchGlyph s.cfg s.cfg.fontBase.toNat c = .ok g →
      exec (.drawChar s.curX s.curY s.fontSize (s.color.setWidth 8) g) s = .next t →
      ∃ u, exec (.printChar c) s = .next u ∧ u.fb = t.fb ∧ u.fault = t.fault ∧ u.faultPc = t.faultPc)

/-! ### Where commands fault -/

/-- R226, R105: a `col` byte above 3 raises `IllegalOperand` in each of the six commands that have one, whatever the
other operands; only `FAULT` and `FAULT_PC` change. -/
def Obligations.ReservedColorBitsRaiseIllegalOperand : Prop :=
  ∀ (s : State) (color : Byte), 3 < color.toNat →
    (∀ x y, exec (.setPixel x y color) s = .next { s with fault := 3, faultPc := s.pc }) ∧
    (∀ x y w h, exec (.drawRect x y w h color) s = .next { s with fault := 3, faultPc := s.pc }) ∧
    (∀ x y n g, exec (.drawChar x y n color g) s = .next { s with fault := 3, faultPc := s.pc }) ∧
    (∀ x y b n text, exec (.drawStr x y b n color text) s = .next { s with fault := 3, faultPc := s.pc }) ∧
    (∀ x y b n num, exec (.drawInt x y b n color num) s = .next { s with fault := 3, faultPc := s.pc }) ∧
    exec (.setColor color) s = .next { s with fault := 3, faultPc := s.pc }

/-- R227: `DRAWINT` with a legal `col` byte, and `PRINTINT` with a font, raise `FormatOverflow` when the decimal text
and its terminator do not fit, whether or not the glyphs would. -/
def Obligations.LongNumberRaisesFormatOverflow : Prop :=
  ∀ (s : State) (num : Word32), s.cfg.intBufCap < (decimal num.toInt).length + 1 →
    (∀ x y b n color, color.toNat ≤ 3 →
      exec (.drawInt x y b n color num) s = .next { s with fault := 4, faultPc := s.pc }) ∧
    (s.cfg.fontPresent = true → exec (.printInt num) s = .next { s with fault := 4, faultPc := s.pc })

/-- R228: a command that is about to draw a character whose glyph does not lie in the font raises `FontBounds`,
whatever the color and the size, and draws nothing. -/
def Obligations.GlyphOutsideFontRaisesFontBounds : Prop :=
  ∀ (s : State) (base : Half) (text : List Byte) (c : Byte) (num : Word32),
    s.cfg.fontBytes ≤ base.toNat + 8 * c.toNat + 7 →
    (c ∈ text → ∀ x y n color, color.toNat ≤ 3 →
      exec (.drawStr x y base n color text) s = .next { s with fault := 5, faultPc := s.pc }) ∧
    (c ∈ decimal num.toInt → (decimal num.toInt).length + 1 ≤ s.cfg.intBufCap → ∀ x y n color, color.toNat ≤ 3 →
      exec (.drawInt x y base n color num) s = .next { s with fault := 5, faultPc := s.pc }) ∧
    (s.cfg.fontPresent = true → s.cfg.fontBase = base →
      (c ∈ text → exec (.printStr text) s = .next { s with fault := 5, faultPc := s.pc }) ∧
      exec (.printChar c) s = .next { s with fault := 5, faultPc := s.pc } ∧
      (c ∈ decimal num.toInt → (decimal num.toInt).length + 1 ≤ s.cfg.intBufCap →
        exec (.printInt num) s = .next { s with fault := 5, faultPc := s.pc }))

/-! ### The frame store and the transport -/

/-- R200: `CLEAR`, the byte 0x50, completes and zeroes every byte of `FB`; the registers and the logs are untouched. -/
def Obligations.ClearZeroesTheFramebuffer : Prop :=
  encode .clear = [0x50] ∧
  ∀ (s : State), Memory.wf s.fb = true →
    ∃ fb', exec .clear s = .next { s with fb := fb', pc := s.pc + 1 } ∧ ∀ a, Memory.read fb' a = 0

/-- R203, R204, R206: `SYNC` completes and appends 65 transactions to `TX`: 64 of the data marker and sixteen bytes of
`FB` each, in framebuffer order, then `80 A4`; whatever the transport answers, nothing else but `PC` changes. The bytes
`80 A4` are the spec's reading of a source that does not print them (R205, log 14). -/
def Obligations.SyncSendsTheWholeFrame : Prop :=
  ∀ (s : State), Memory.wf s.fb = true →
    exec .sync s = .next { s with
      tx := s.tx ++ (List.range 64).map (fun c =>
          ({ addr := s.cfg.devAddr
             payload := 0x40 :: (List.range 16).map fun k => Memory.read s.fb (16 * c + k) } : Transaction)) ++
        [{ addr := s.cfg.devAddr, payload := [0x80, 0xA4] }]
      pc := s.pc + 1 }

/-- R207, R209, R210: `BEGIN` completes, appends the 32-byte bring-up transaction to `TX` and the transport's answer to
`RSP`; the answer to transaction number `n` since reset is the one the launch gives, and past those it is free
(log 4). That the bytes go as one transaction is the spec's reading (R209, log 14). -/
def Obligations.BeginSendsTheBringUp : Prop :=
  ∀ (s : State), ∃ ack : Bool,
    (∀ a, s.acks[s.tx.length]? = some a → ack = a) ∧
    exec .begin s = .next { s with
      tx := s.tx ++ [{ addr := s.cfg.devAddr
                       payload := [0x80, 0xA8, 0x80, 0x3F, 0x80, 0xD3, 0x80, 0x7F, 0x80, 0x40, 0x80, 0xA1, 0x80, 0xC8,
                         0x80, 0xDA, 0x80, 0x10, 0x80, 0xA4, 0x80, 0xA6, 0x80, 0x8D, 0x80, 0x14, 0x80, 0x20, 0x80,
                         0x00, 0x80, 0xAF] }]
      rsp := s.rsp ++ [if ack then 1 else 0]
      pc := s.pc + 1 }

/-! ### Operand bytes -/

/-- R84: multi-byte operands are stored least significant byte first and signed types are two's complement; the
encoder's bytes are those the decoder puts together. -/
def Obligations.OperandBytesAreLittleEndian : Prop :=
  (∀ b0 b1 : Byte,
    (le16 b0 b1).toNat = b0.toNat + 256 * b1.toNat ∧
    (le16 b0 b1).toInt =
      (if b0.toNat + 256 * b1.toNat < 32768 then ((b0.toNat + 256 * b1.toNat : Nat) : Int)
        else ((b0.toNat + 256 * b1.toNat : Nat) : Int) - 65536) ∧
    bytes16 (le16 b0 b1) = [b0, b1]) ∧
  (∀ b0 b1 b2 b3 : Byte,
    (le32 b0 b1 b2 b3).toNat = b0.toNat + 256 * b1.toNat + 65536 * b2.toNat + 16777216 * b3.toNat ∧
    (le32 b0 b1 b2 b3).toInt =
      (if (le32 b0 b1 b2 b3).toNat < 2147483648 then ((le32 b0 b1 b2 b3).toNat : Int)
        else ((le32 b0 b1 b2 b3).toNat : Int) - 4294967296) ∧
    bytes32 (le32 b0 b1 b2 b3) = [b0, b1, b2, b3]) ∧
  (le32 0xF4 0xFF 0xFF 0xFF).toInt = -12 ∧ (le16 0xC8 0x00).toInt = 200 ∧ (le16 0xFE 0xFF).toInt = -2

/-- R88 to R100: the packet of every command, for all operands, is its opcode and its operands in the order of its
format's table. With `DecodeOfEncodeIsTheCommand` and `OperandBytesAreLittleEndian` this fixes every operand's offset. -/
def Obligations.PacketsFollowTheFormatTables : Prop :=
  (∀ x y c, encode (.setPixel x y c) = 0x10 :: (bytes16 x ++ bytes16 y ++ [c])) ∧
  (∀ x y, encode (.getPixel x y) = 0x11 :: (bytes16 x ++ bytes16 y)) ∧
  (∀ x y w h c, encode (.drawRect x y w h c) = 0x20 :: (bytes16 x ++ bytes16 y ++ bytes16 w ++ bytes16 h ++ [c])) ∧
  (∀ x y size c g0 g1 g2 g3 g4 g5 g6 g7, encode (.drawChar x y size c ⟨g0, g1, g2, g3, g4, g5, g6, g7⟩) =
    0x30 :: (bytes16 x ++ bytes16 y ++ bytes16 size ++ [c] ++ [g0, g1, g2, g3, g4, g5, g6, g7])) ∧
  (∀ x y fbase size c text, encode (.drawStr x y fbase size c text) =
    0x40 :: (bytes16 x ++ bytes16 y ++ bytes16 fbase ++ bytes16 size ++ [c] ++ text ++ [0x00])) ∧
  (∀ x y fbase size c num, encode (.drawInt x y fbase size c num) =
    0x41 :: (bytes16 x ++ bytes16 y ++ bytes16 fbase ++ bytes16 size ++ [c] ++ bytes32 num)) ∧
  (∀ x y, encode (.setCursor x y) = 0x42 :: (bytes16 x ++ bytes16 y)) ∧
  (∀ size, encode (.setFontSize size) = 0x43 :: bytes16 size) ∧
  (∀ c, encode (.setColor c) = [0x44, c]) ∧
  (∀ text, encode (.printStr text) = 0x45 :: (text ++ [0x00])) ∧
  (∀ c, encode (.printChar c) = [0x46, c]) ∧
  (∀ num, encode (.printInt num) = 0x47 :: bytes32 num) ∧
  encode .clear = [0x50] ∧ encode .sync = [0x51] ∧ encode .begin = [0x52]
end

