-- ==== Sys2Proof/Laws/Decode.lean ====
section
/-! SUPPORT. The small laws of decoding: opcodes, little-endian operands, the scan of a text field. -/

namespace Sys2Proof

/-- The opcode map is read back by its own numbers (R88). -/
theorem opOfByte_code (op : Op) : opOfByte op.code = some op := by
  cases op <;> rfl

theorem code_of_opOfByte {b : Byte} {op : Op} (h : opOfByte b = some op) : op.code = b := by
  simpa using List.find?_some h

/-! ### Operands (R84) -/

theorem byteOf_toNat {w : Nat} (v : BitVec w) (k : Nat) : (byteOf v k).toNat = v.toNat / 2 ^ (8 * k) % 256 := by
  simp [byteOf, BitVec.extractLsb'_toNat, Nat.shiftRight_eq_div_pow]

theorem le16_toNat (b0 b1 : Byte) : (le16 b0 b1).toNat = b0.toNat + 256 * b1.toNat := by
  have h0 := b0.isLt
  have h1 := b1.isLt
  rw [le16, BitVec.toNat_ofNat]
  omega

theorem le32_toNat (b0 b1 b2 b3 : Byte) :
    (le32 b0 b1 b2 b3).toNat = b0.toNat + 256 * b1.toNat + 65536 * b2.toNat + 16777216 * b3.toNat := by
  have h0 := b0.isLt
  have h1 := b1.isLt
  have h2 := b2.isLt
  have h3 := b3.isLt
  rw [le32, BitVec.toNat_ofNat]
  omega

theorem le16_bytes (v : Half) : le16 (byteOf v 0) (byteOf v 1) = v := by
  have hv := v.isLt
  refine BitVec.eq_of_toNat_eq ?_
  rw [le16_toNat, byteOf_toNat, byteOf_toNat]
  omega

theorem bytes16_le16 (b0 b1 : Byte) : bytes16 (le16 b0 b1) = [b0, b1] := by
  have h0 := b0.isLt
  have h1 := b1.isLt
  simp only [bytes16, List.cons.injEq, and_true]
  refine ⟨?_, ?_⟩ <;> refine BitVec.eq_of_toNat_eq ?_ <;> rw [byteOf_toNat, le16_toNat] <;> omega

theorem le32_bytes (v : Word32) : le32 (byteOf v 0) (byteOf v 1) (byteOf v 2) (byteOf v 3) = v := by
  have hv := v.isLt
  refine BitVec.eq_of_toNat_eq ?_
  rw [le32_toNat, byteOf_toNat, byteOf_toNat, byteOf_toNat, byteOf_toNat]
  omega

theorem bytes32_le32 (b0 b1 b2 b3 : Byte) : bytes32 (le32 b0 b1 b2 b3) = [b0, b1, b2, b3] := by
  have h0 := b0.isLt
  have h1 := b1.isLt
  have h2 := b2.isLt
  have h3 := b3.isLt
  simp only [bytes32, List.cons.injEq, and_true]
  refine ⟨?_, ?_, ?_, ?_⟩ <;> refine BitVec.eq_of_toNat_eq ?_ <;> rw [byteOf_toNat, le32_toNat] <;> omega

/-! ### Texts (R86, R107) -/

/-- A text of at most `TEXT_MAX` non-zero bytes and its terminator is found. -/
theorem scanText_found {text : List Byte} (hne : ∀ b ∈ text, b ≠ 0) (rest : List Byte) :
    ∀ {fuel : Nat}, text.length < fuel → scanText fuel (text ++ 0 :: rest) = .found text rest := by
  induction text with
  | nil => intro fuel h; cases fuel with
    | zero => omega
    | succ n => simp [scanText]
  | cons b text ih =>
    intro fuel h
    cases fuel with
    | zero => omega
    | succ n =>
      have hb : b ≠ 0 := hne b (by simp)
      simp only [List.cons_append, scanText, if_neg hb]
      rw [ih (fun c hc => hne c (by simp [hc])) (by simpa using h)]

/-- What is found is in the bytes, before a terminator, and fits the limit. -/
theorem scanText_sound : ∀ {fuel : Nat} {bs text rest : List Byte}, scanText fuel bs = .found text rest →
    bs = text ++ 0 :: rest ∧ text.length < fuel ∧ ∀ b ∈ text, b ≠ 0 := by
  intro fuel
  induction fuel with
  | zero => intro bs text rest h; simp [scanText] at h
  | succ n ih =>
    intro bs text rest h
    cases bs with
    | nil => simp [scanText] at h
    | cons b bs =>
      simp only [scanText] at h
      by_cases hb : b = 0
      · rw [if_pos hb] at h; cases h; simp [hb]
      · rw [if_neg hb] at h
        cases hs : scanText n bs with
        | found t r =>
          rw [hs] at h; cases h
          obtain ⟨h1, h2, h3⟩ := ih hs
          refine ⟨by rw [h1]; rfl, by simp [h2], fun c hc => ?_⟩
          rcases List.mem_cons.mp hc with rfl | hc
          · exact hb
          · exact h3 c hc
        | unterminated => rw [hs] at h; cases h
        | truncated => rw [hs] at h; cases h

/-- `fuel` non-zero bytes in a row are an unterminated text. -/
theorem scanText_unterminated {text : List Byte} (hne : ∀ b ∈ text, b ≠ 0) (rest : List Byte) :
    scanText text.length (text ++ rest) = .unterminated := by
  induction text with
  | nil => rfl
  | cons b text ih =>
    have hb : b ≠ 0 := hne b (by simp)
    simp only [List.length_cons, List.cons_append, scanText, if_neg hb]
    rw [ih fun c hc => hne c (by simp [hc])]

/-- Fewer non-zero bytes and then the end of the stream are a truncated text, and nothing else is. -/
theorem scanText_truncated_iff : ∀ {fuel : Nat} {bs : List Byte},
    scanText fuel bs = .truncated ↔ bs.length < fuel ∧ ∀ b ∈ bs, b ≠ 0 := by
  intro fuel
  induction fuel with
  | zero => intro bs; simp [scanText]
  | succ n ih =>
    intro bs
    cases bs with
    | nil => simp [scanText]
    | cons b bs =>
      simp only [scanText]
      by_cases hb : b = 0
      · rw [if_pos hb]; simp [hb]
      · rw [if_neg hb]
        have := ih (bs := bs)
        cases hs : scanText n bs <;> rw [hs] at this <;> simp_all

end Sys2Proof
end

