-- ==== Sys2Proof/Laws/Memory.lean ====
section
/-! SUPPORT. The framebuffer as a memory: reading after each kind of write, the canonical form kept by every
operation, and equality of canonical memories that read alike. -/

namespace Sys2Proof.Machine

/-! ### Reading -/

@[simp] theorem Memory.read_nil (a : Nat) : Memory.read [] a = 0 := rfl

theorem Memory.read_cons (k : Nat) (v : Byte) (m : Memory) (a : Nat) :
    Memory.read ((k, v) :: m) a = if a < k then 0 else if a = k then v else Memory.read m a := rfl

theorem Memory.sortedFrom_cons {lo k : Nat} {v : Byte} {m : Memory} :
    Memory.sortedFrom lo ((k, v) :: m) = true ↔ lo ≤ k ∧ v ≠ 0 ∧ Memory.sortedFrom (k + 1) m = true := by
  simp [Memory.sortedFrom, and_assoc]

theorem Memory.sortedFrom_mono {lo lo' : Nat} {m : Memory} (hle : lo ≤ lo')
    (h : Memory.sortedFrom lo' m = true) : Memory.sortedFrom lo m = true := by
  cases m with
  | nil => rfl
  | cons c m =>
    obtain ⟨h1, h2⟩ := Memory.sortedFrom_cons.mp h
    exact Memory.sortedFrom_cons.mpr ⟨by omega, h2⟩

/-- Below its first address a sorted memory reads 0x00. -/
theorem Memory.read_below {lo a : Nat} {m : Memory} (h : Memory.sortedFrom lo m = true) (ha : a < lo) :
    Memory.read m a = 0 := by
  cases m with
  | nil => rfl
  | cons c m =>
    obtain ⟨h1, -⟩ := Memory.sortedFrom_cons.mp h
    rw [Memory.read_cons, if_pos (by omega)]

theorem Memory.read_cell {a : Nat} {v : Byte} {m : Memory} (h : Memory.sortedFrom (a + 1) m = true) (b : Nat) :
    Memory.read (Memory.cell a v m) b = if b = a then v else Memory.read m b := by
  unfold Memory.cell
  by_cases hv : v = 0
  · rw [if_pos hv]
    by_cases hb : b = a
    · subst hb; rw [if_pos rfl, Memory.read_below h (by omega), hv]
    · rw [if_neg hb]
  · rw [if_neg hv, Memory.read_cons]
    by_cases hb : b = a
    · simp [hb]
    · by_cases hlt : b < a
      · rw [if_pos hlt, if_neg hb, Memory.read_below h (by omega)]
      · rw [if_neg hlt, if_neg hb]

theorem Memory.sortedFrom_cell {a : Nat} {v : Byte} {m : Memory} (h : Memory.sortedFrom (a + 1) m = true) :
    Memory.sortedFrom a (Memory.cell a v m) = true := by
  unfold Memory.cell
  by_cases hv : v = 0
  · rw [if_pos hv]; exact Memory.sortedFrom_mono (by omega) h
  · rw [if_neg hv]; exact Memory.sortedFrom_cons.mpr ⟨le_refl _, hv, h⟩

/-! ### One byte written -/

theorem Memory.sortedFrom_write {lo a : Nat} {v : Byte} {m : Memory} (h : Memory.sortedFrom lo m = true)
    (ha : lo ≤ a) : Memory.sortedFrom lo (Memory.write m a v) = true := by
  induction m generalizing lo with
  | nil => exact Memory.sortedFrom_mono ha (Memory.sortedFrom_cell rfl)
  | cons c m ih =>
    obtain ⟨k, w⟩ := c
    obtain ⟨h1, h2, h3⟩ := Memory.sortedFrom_cons.mp h
    simp only [Memory.write]
    split_ifs with hlt heq
    · exact Memory.sortedFrom_mono ha
        (Memory.sortedFrom_cell (Memory.sortedFrom_cons.mpr ⟨by omega, h2, h3⟩))
    · subst heq; exact Memory.sortedFrom_mono ha (Memory.sortedFrom_cell h3)
    · exact Memory.sortedFrom_cons.mpr ⟨h1, h2, ih h3 (by omega)⟩

/-- A read after a write: the byte written at its address, every other byte as before. -/
theorem Memory.read_write {lo : Nat} {m : Memory} (h : Memory.sortedFrom lo m = true) (a : Nat) (v : Byte)
    (b : Nat) : Memory.read (Memory.write m a v) b = if b = a then v else Memory.read m b := by
  induction m generalizing lo with
  | nil => exact Memory.read_cell rfl b
  | cons c m ih =>
    obtain ⟨k, w⟩ := c
    obtain ⟨h1, h2, h3⟩ := Memory.sortedFrom_cons.mp h
    simp only [Memory.write]
    by_cases hlt : a < k
    · rw [if_pos hlt, Memory.read_cell (Memory.sortedFrom_cons.mpr ⟨by omega, h2, h3⟩)]
    · by_cases heq : a = k
      · subst heq
        rw [if_neg hlt, if_pos rfl, Memory.read_cell h3, Memory.read_cons]
        by_cases hb : b = a
        · rw [if_pos hb, if_pos hb]
        · rw [if_neg hb, if_neg hb, if_neg hb]
          split_ifs with hlt'
          · exact Memory.read_below h3 (by omega)
          · rfl
      · rw [if_neg hlt, if_neg heq, Memory.read_cons, Memory.read_cons, ih h3]
        by_cases hb : b = a
        · subst hb; rw [if_pos rfl, if_neg hlt, if_neg heq, if_pos rfl]
        · rw [if_neg hb, if_neg hb]

/-! ### A run of bytes -/

theorem Memory.updateRun_spec (n : Nat) : ∀ {a : Nat} (f : Byte → Byte) {m : Memory},
    Memory.sortedFrom a m = true →
      Memory.sortedFrom a (Memory.updateRun n a f m) = true ∧
      ∀ b, Memory.read (Memory.updateRun n a f m) b =
        if a ≤ b ∧ b < a + n then f (Memory.read m b) else Memory.read m b := by
  induction n with
  | zero =>
    intro a f m h
    exact ⟨by simpa [Memory.updateRun] using h, fun b => by
      rw [if_neg (by omega)]; simp [Memory.updateRun]⟩
  | succ n ih =>
    intro a f m h
    cases m with
    | nil =>
      obtain ⟨hs, hr⟩ := ih (a := a + 1) f (m := []) rfl
      refine ⟨Memory.sortedFrom_cell hs, fun b => ?_⟩
      simp only [Memory.updateRun]
      rw [Memory.read_cell hs, hr]
      split_ifs <;> first | rfl | omega
    | cons c m =>
      obtain ⟨k, v⟩ := c
      obtain ⟨h1, h2, h3⟩ := Memory.sortedFrom_cons.mp h
      by_cases hk : k = a
      · subst hk
        obtain ⟨hs, hr⟩ := ih (a := k + 1) f h3
        simp only [Memory.updateRun, if_true]
        refine ⟨Memory.sortedFrom_cell hs, fun b => ?_⟩
        rw [Memory.read_cell hs, hr, Memory.read_cons]
        by_cases hb : b = k
        · subst hb; simp
        · by_cases hlt : b < k
          · rw [if_neg hb, if_neg (by omega), if_neg (by omega), if_pos hlt, Memory.read_below h3 (by omega)]
          · simp only [if_neg hb, if_neg hlt]
            split_ifs <;> first | rfl | omega
      · have hsorted : Memory.sortedFrom (a + 1) ((k, v) :: m) = true :=
          Memory.sortedFrom_cons.mpr ⟨by omega, h2, h3⟩
        obtain ⟨hs, hr⟩ := ih (a := a + 1) f hsorted
        simp only [Memory.updateRun, if_neg hk]
        refine ⟨Memory.sortedFrom_cell hs, fun b => ?_⟩
        rw [Memory.read_cell hs, hr]
        by_cases hb : b = a
        · subst hb; rw [if_pos rfl, if_pos (by omega), Memory.read_below hsorted (by omega)]
        · rw [if_neg hb]; split_ifs <;> first | rfl | omega

/-- A run of bytes updated: each byte of the run as `f` makes it, every other byte as before. -/
theorem Memory.modifyRun_spec {lo : Nat} (n : Nat) {a : Nat} (f : Byte → Byte) {m : Memory}
    (h : Memory.sortedFrom lo m = true) (ha : lo ≤ a) :
    Memory.sortedFrom lo (Memory.modifyRun n a f m) = true ∧
    ∀ b, Memory.read (Memory.modifyRun n a f m) b =
      if a ≤ b ∧ b < a + n then f (Memory.read m b) else Memory.read m b := by
  induction m generalizing lo with
  | nil =>
    obtain ⟨hs, hr⟩ := Memory.updateRun_spec n (a := a) f (m := []) rfl
    exact ⟨Memory.sortedFrom_mono ha hs, hr⟩
  | cons c m ih =>
    obtain ⟨k, v⟩ := c
    obtain ⟨h1, h2, h3⟩ := Memory.sortedFrom_cons.mp h
    simp only [Memory.modifyRun]
    by_cases hk : k < a
    · obtain ⟨hs, hr⟩ := ih h3 (by omega)
      rw [if_pos hk]
      refine ⟨Memory.sortedFrom_cons.mpr ⟨h1, h2, hs⟩, fun b => ?_⟩
      rw [Memory.read_cons, Memory.read_cons, hr]
      split_ifs <;> first | rfl | omega
    · rw [if_neg hk]
      obtain ⟨hs, hr⟩ := Memory.updateRun_spec n (a := a) f
        (m := (k, v) :: m) (Memory.sortedFrom_cons.mpr ⟨by omega, h2, h3⟩)
      exact ⟨Memory.sortedFrom_mono ha hs, hr⟩

theorem Memory.takeRun_eq (n : Nat) : ∀ {a : Nat} {m : Memory}, Memory.sortedFrom a m = true →
    Memory.takeRun n a m = (List.range n).map fun k => Memory.read m (a + k) := by
  induction n with
  | zero => intro a m _; simp [Memory.takeRun]
  | succ n ih =>
    intro a m h
    rw [List.range_succ_eq_map, List.map_cons, List.map_map]
    cases m with
    | nil =>
      rw [Memory.takeRun, ih (a := a + 1) (m := []) rfl]
      simp [Function.comp_def]
    | cons c m =>
      obtain ⟨k, v⟩ := c
      obtain ⟨h1, h2, h3⟩ := Memory.sortedFrom_cons.mp h
      by_cases hk : k = a
      · subst hk
        simp only [Memory.takeRun, if_true]
        rw [ih h3]
        refine congrArg₂ _ (by simp [Memory.read_cons]) (List.map_congr_left fun j _ => ?_)
        rw [Function.comp, Memory.read_cons, if_neg (by omega), if_neg (by omega)]
        exact congrArg _ (by omega)
      · have hsorted : Memory.sortedFrom (a + 1) ((k, v) :: m) = true :=
          Memory.sortedFrom_cons.mpr ⟨by omega, h2, h3⟩
        simp only [Memory.takeRun, if_neg hk]
        rw [ih hsorted]
        refine congrArg₂ _ ?_ (List.map_congr_left fun j _ => ?_)
        · rw [Memory.read_cons, if_pos (by omega)]
        · exact congrArg _ (by show a + 1 + j = a + (j + 1); omega)

theorem Memory.readList_eq_of_sorted {lo : Nat} (n a : Nat) {m : Memory} (h : Memory.sortedFrom lo m = true) :
    Memory.readList n a m = (List.range n).map fun k => Memory.read m (a + k) := by
  induction m generalizing lo with
  | nil => exact Memory.takeRun_eq n rfl
  | cons c m ih =>
    obtain ⟨k, v⟩ := c
    obtain ⟨h1, h2, h3⟩ := Memory.sortedFrom_cons.mp h
    simp only [Memory.readList]
    by_cases hk : k < a
    · rw [if_pos hk, ih h3]
      refine List.map_congr_left fun j _ => ?_
      rw [Memory.read_cons, if_neg (by omega), if_neg (by omega)]
    · rw [if_neg hk]
      exact Memory.takeRun_eq n (Memory.sortedFrom_cons.mpr ⟨by omega, h2, h3⟩)

/-! ### The canonical form -/

/-- A listed address of a sorted memory does not read 0x00. -/
theorem Memory.read_of_mem {lo : Nat} {m : Memory} (h : Memory.sortedFrom lo m = true) {c : Host.Cell}
    (hc : c ∈ m) : lo ≤ c.1 ∧ Memory.read m c.1 = c.2 ∧ c.2 ≠ 0 := by
  induction m generalizing lo with
  | nil => cases hc
  | cons d m ih =>
    obtain ⟨k, v⟩ := d
    obtain ⟨h1, h2, h3⟩ := Memory.sortedFrom_cons.mp h
    cases hc with
    | head => exact ⟨h1, by simp [Memory.read_cons], h2⟩
    | tail _ hc =>
      obtain ⟨i1, i2, i3⟩ := ih h3 hc
      exact ⟨by omega, by rw [Memory.read_cons, if_neg (by omega), if_neg (by omega)]; exact i2, i3⟩

/-- The canonical form says: sorted, and 0x00 outside 0 to 1023. -/
theorem Memory.wf_iff (m : Memory) :
    Memory.wf m = true ↔ Memory.sortedFrom 0 m = true ∧ ∀ a, FB_BYTES ≤ a → Memory.read m a = 0 := by
  unfold Memory.wf
  rw [Bool.and_eq_true, List.all_eq_true]
  refine and_congr_right fun hs => ⟨fun h a ha => ?_, fun h c hc => ?_⟩
  · clear hs
    induction m with
    | nil => rfl
    | cons c m ih =>
      have hc : c.1 < FB_BYTES := of_decide_eq_true (h c List.mem_cons_self)
      obtain ⟨k, v⟩ := c
      have hk : k < FB_BYTES := hc
      rw [Memory.read_cons, if_neg (by omega), if_neg (by omega)]
      exact ih fun d hd => h d (by simp [hd])
  · obtain ⟨-, h2, h3⟩ := Memory.read_of_mem hs hc
    exact decide_eq_true (Nat.lt_of_not_le fun hge => h3 (h2 ▸ h c.1 hge))

theorem Memory.wf_sorted {m : Memory} (h : Memory.wf m = true) : Memory.sortedFrom 0 m = true :=
  ((Memory.wf_iff m).mp h).1

@[simp] theorem Memory.wf_nil : Memory.wf [] = true := rfl

theorem Memory.wf_write {m : Memory} (h : Memory.wf m = true) {a : Nat} (ha : a < FB_BYTES) (v : Byte) :
    Memory.wf (Memory.write m a v) = true := by
  obtain ⟨hs, hz⟩ := (Memory.wf_iff m).mp h
  refine (Memory.wf_iff _).mpr ⟨Memory.sortedFrom_write hs (Nat.zero_le a), fun b hb => ?_⟩
  rw [Memory.read_write hs, if_neg (by omega), hz b hb]

theorem Memory.wf_modifyRun {m : Memory} (h : Memory.wf m = true) {n a : Nat} (ha : a + n ≤ FB_BYTES)
    (f : Byte → Byte) : Memory.wf (Memory.modifyRun n a f m) = true := by
  obtain ⟨hs, hz⟩ := (Memory.wf_iff m).mp h
  obtain ⟨h1, h2⟩ := Memory.modifyRun_spec n f hs (Nat.zero_le a)
  refine (Memory.wf_iff _).mpr ⟨h1, fun b hb => ?_⟩
  rw [h2, if_neg (by omega), hz b hb]

theorem Memory.read_modifyRun {m : Memory} (h : Memory.wf m = true) (n a : Nat) (f : Byte → Byte) (b : Nat) :
    Memory.read (Memory.modifyRun n a f m) b =
      if a ≤ b ∧ b < a + n then f (Memory.read m b) else Memory.read m b :=
  (Memory.modifyRun_spec n f (Memory.wf_sorted h) (Nat.zero_le a)).2 b

/-- `MemRead` gives the bytes that single reads give. -/
theorem Memory.readList_eq {m : Memory} (h : Memory.wf m = true) (n a : Nat) :
    Memory.readList n a m = (List.range n).map fun k => Memory.read m (a + k) :=
  Memory.readList_eq_of_sorted n a (Memory.wf_sorted h)

theorem Memory.ext_sorted {lo : Nat} {m m' : Memory} (h : Memory.sortedFrom lo m = true)
    (h' : Memory.sortedFrom lo m' = true) (hr : ∀ a, Memory.read m a = Memory.read m' a) : m = m' := by
  induction m generalizing lo m' with
  | nil =>
    cases m' with
    | nil => rfl
    | cons c m' =>
      obtain ⟨-, h2, h3⟩ := Memory.read_of_mem h' (List.mem_cons_self (a := c) (l := m'))
      exact absurd (h2.symm.trans (hr c.1).symm) h3
  | cons c m ih =>
    obtain ⟨k, v⟩ := c
    obtain ⟨h1, h2, h3⟩ := Memory.sortedFrom_cons.mp h
    cases m' with
    | nil => exact absurd (by simpa [Memory.read_cons] using hr k) h2
    | cons c' m' =>
      obtain ⟨k', v'⟩ := c'
      obtain ⟨h1', h2', h3'⟩ := Memory.sortedFrom_cons.mp h'
      have hk : k = k' := by
        rcases Nat.lt_trichotomy k k' with hlt | heq | hgt
        · exact absurd (by simpa [Memory.read_cons, hlt] using hr k) h2
        · exact heq
        · exact absurd (by simpa [Memory.read_cons, hgt] using (hr k').symm) h2'
      subst hk
      have hv : v = v' := by simpa [Memory.read_cons] using hr k
      subst hv
      congr 1
      refine ih h3 h3' fun a => ?_
      have ha := hr a
      rw [Memory.read_cons, Memory.read_cons] at ha
      by_cases hlt : a < k + 1
      · rw [Memory.read_below h3 hlt, Memory.read_below h3' hlt]
      · rwa [if_neg (by omega), if_neg (by omega), if_neg (by omega), if_neg (by omega)] at ha

/-- Two memories in canonical form that read alike are equal. -/
theorem Memory.ext {m m' : Memory} (h : Memory.wf m = true) (h' : Memory.wf m' = true)
    (hr : ∀ a, Memory.read m a = Memory.read m' a) : m = m' :=
  Memory.ext_sorted (Memory.wf_sorted h) (Memory.wf_sorted h') hr

/-- The zero fill empties a memory in canonical form (R200). -/
theorem Memory.zeroFill_eq {m : Memory} (h : Memory.wf m = true) : Memory.zeroFill m = [] := by
  refine Memory.ext (Memory.wf_modifyRun h (Nat.zero_add _).le _) rfl fun a => ?_
  obtain ⟨-, hz⟩ := (Memory.wf_iff m).mp h
  rw [Memory.zeroFill, Memory.read_modifyRun h, Memory.read_nil]
  split_ifs with ha
  · rfl
  · exact hz a (by omega)

end Sys2Proof.Machine
end

