-- ==== Sys2Proof/Laws/Pixel.lean ====
section
/-! SUPPORT. The address translator as a bijection (40_pixel.md R122), and what the pixel write operator does to the
picture and to the canonical form. -/

namespace Sys2Proof.Machine

/-! ### The translator -/

theorem inRange_iff (x y : Int) : inRange x y = true ↔ (0 ≤ x ∧ x < 128) ∧ 0 ≤ y ∧ y < 64 := by
  simp only [inRange, Bool.and_eq_true, decide_eq_true_eq]
  simp only [WIDTH, HEIGHT]
  omega

theorem byteIndex_lt {x y : Int} (h : inRange x y = true) : byteIndex x y < FB_BYTES := by
  rw [inRange_iff] at h
  simp only [byteIndex, pageNumber, WIDTH, FB_BYTES]
  omega

/-- The pixel of a byte and bit is the only one the translator sends there (R122). -/
theorem translator_inverse {x y : Int} (h : inRange x y = true) {a b : Nat} (hb : b < 8) :
    byteIndex x y = a ∧ pagePosition y = b ↔
      a < FB_BYTES ∧ ((a % 128 : Nat) : Int) = x ∧ ((8 * (a / 128) + b : Nat) : Int) = y := by
  rw [inRange_iff] at h
  simp only [byteIndex, pageNumber, pagePosition, WIDTH, FB_BYTES]
  omega

theorem pagePosition_lt (y : Int) : pagePosition y < 8 := Nat.mod_lt _ (by decide)

@[simp] theorem bitMask_getLsbD (y : Int) {b : Nat} (hb : b < 8) :
    (bitMask y).getLsbD b = decide (b = pagePosition y) := by
  have hp := pagePosition_lt y
  unfold bitMask
  generalize pagePosition y = p at hp ⊢
  interval_cases p <;> interval_cases b <;> rfl

/-- A masked update, bit by bit (R124). -/
theorem applyMask_getLsbD (d : Directive) (v m : Byte) {b : Nat} (hb : b < 8) :
    (applyMask d v m).getLsbD b = if m.getLsbD b then onBit d (v.getLsbD b) else v.getLsbD b := by
  cases d <;> simp only [applyMask, onBit, BitVec.getLsbD_or, BitVec.getLsbD_and, BitVec.getLsbD_xor,
    BitVec.getLsbD_not, hb, decide_true, Bool.true_and] <;>
  cases m.getLsbD b <;> simp

/-! ### Pictures -/

@[simp] theorem onBit_ignore (v : Bool) : onBit .ignore v = v := rfl

theorem Paints.refl (fb : Memory) : Paints fb fb fun _ _ => .ignore := by
  intro a b _; simp only [onBit_ignore, ite_self]

/-- Two pictures that agree on the panel paint the same. -/
theorem Paints.of_eq {fb fb' : Memory} {D E : Int → Int → Directive} (h : Paints fb fb' D)
    (hE : ∀ px py : Int, (0 ≤ px ∧ px < 128) ∧ 0 ≤ py ∧ py < 64 → D px py = E px py) : Paints fb fb' E := by
  intro a b hb
  rw [h a b hb]
  by_cases ha : a < FB_BYTES
  · rw [if_pos ha, if_pos ha, hE]
    simp only [FB_BYTES] at ha; omega
  · rw [if_neg ha, if_neg ha]

/-- One picture over another. -/
def overlay (D E : Int → Int → Directive) (px py : Int) : Directive :=
  if E px py = .ignore then D px py else E px py

theorem overlay_left {D E : Int → Int → Directive} {px py : Int} (h : E px py = .ignore) :
    overlay D E px py = D px py := by
  rw [overlay, if_pos h]

theorem overlay_right {D E : Int → Int → Directive} {px py : Int} (h : D px py = .ignore) :
    overlay D E px py = E px py := by
  unfold overlay
  split_ifs with he
  · rw [h, he]
  · rfl

/-- One picture after another that touches none of its pixels is the two together. -/
theorem Paints.trans {f g h : Memory} {D E : Int → Int → Directive} (h1 : Paints f g D) (h2 : Paints g h E)
    (hdis : ∀ px py, D px py = .ignore ∨ E px py = .ignore) : Paints f h (overlay D E) := by
  intro a b hb
  rw [h2 a b hb, h1 a b hb]
  by_cases ha : a < FB_BYTES
  · simp only [if_pos ha]
    rcases hdis ((a % 128 : Nat) : Int) ((8 * (a / 128) + b : Nat) : Int) with hd | he
    · rw [overlay_right hd, hd]; rfl
    · rw [overlay_left he, he]; rfl
  · simp only [if_neg ha]

/-- A picture determines the canonical memory. -/
theorem Paints.unique {fb f g : Memory} {D : Int → Int → Directive} (h1 : Paints fb f D) (h2 : Paints fb g D)
    (hf : Memory.wf f = true) (hg : Memory.wf g = true) : f = g := by
  refine Memory.ext hf hg fun a => BitVec.eq_of_getLsbD_eq fun b hb => ?_
  exact (h1 a b hb).trans (h2 a b hb).symm

/-! ### The write operator -/

theorem wf_writePixel {fb : Memory} (h : Memory.wf fb = true) (x y : Int) (d : Directive) :
    Memory.wf (writePixel x y d fb) = true := by
  unfold writePixel
  split_ifs with hr
  · cases d <;> first | exact h | exact Memory.wf_write h (byteIndex_lt hr) _
  · exact h

theorem writePixel_ignore (x y : Int) (fb : Memory) : writePixel x y .ignore fb = fb := by
  simp [writePixel]

theorem writePixel_outside {x y : Int} (h : inRange x y = false) (d : Directive) (fb : Memory) :
    writePixel x y d fb = fb := by
  simp [writePixel, h]

theorem writePixel_inside {x y : Int} (h : inRange x y = true) (d : Directive) (hd : d ≠ .ignore) (fb : Memory) :
    writePixel x y d fb =
      Memory.write fb (byteIndex x y) (applyMask d (Memory.read fb (byteIndex x y)) (bitMask y)) := by
  cases d <;> first | exact absurd rfl hd | simp [writePixel, h]

/-- The write operator paints its one pixel and nothing else (R124). -/
theorem paints_writePixel {fb : Memory} (h : Memory.wf fb = true) (x y : Int) (d : Directive) :
    Paints fb (writePixel x y d fb) (pixelMap x y d) := by
  intro a b hb
  by_cases hr : inRange x y = true
  · by_cases hd : d = .ignore
    · subst hd; simp [writePixel_ignore, pixelMap]
    · have key := translator_inverse hr (a := a) hb
      rw [writePixel_inside hr d hd]
      unfold bitAt pixelMap
      rw [Memory.read_write (Memory.wf_sorted h)]
      by_cases ha : a = byteIndex x y
      · subst ha
        rw [if_pos rfl, applyMask_getLsbD d _ _ hb, bitMask_getLsbD y hb, if_pos (byteIndex_lt hr)]
        by_cases hp : b = pagePosition y
        · rw [if_pos (by simpa using hp), if_pos (key.mp ⟨rfl, hp.symm⟩).2]
        · rw [if_neg (by simpa using hp), if_neg, onBit_ignore]
          exact fun hc => hp (key.mpr ⟨byteIndex_lt hr, hc⟩).2.symm
      · rw [if_neg ha]
        split_ifs with h1 h2
        · exact absurd (key.mpr ⟨h1, h2⟩).1.symm ha
        · rfl
        · rfl
  · rw [writePixel_outside (by simpa using hr)]
    rw [inRange_iff] at hr
    unfold pixelMap
    split_ifs with h1 h2
    · exact absurd h2 (by simp only [FB_BYTES] at h1; omega)
    · rfl
    · rfl

/-- The read answers the pixel's bit (R125). -/
theorem readPixel_eq_bitAt {x y : Int} (h : inRange x y = true) (fb : Memory) :
    readPixel x y fb = bitAt fb (byteIndex x y) (pagePosition y) := by
  have hp := pagePosition_lt y
  simp only [readPixel, h, if_true, bitAt]
  generalize Memory.read fb (byteIndex x y) = v
  unfold bitMask
  generalize pagePosition y = p at hp ⊢
  revert v
  interval_cases p <;> decide

theorem readPixel_outside {x y : Int} (h : inRange x y = false) (fb : Memory) : readPixel x y fb = false := by
  simp [readPixel, h]

/-- What the read answers after a picture has been painted. -/
theorem Paints.readPixel {fb fb' : Memory} {D : Int → Int → Directive} (h : Paints fb fb' D) {x y : Int}
    (hr : inRange x y = true) : readPixel x y fb' = onBit (D x y) (readPixel x y fb) := by
  have hb := pagePosition_lt y
  obtain ⟨ha, hx, hy⟩ := (translator_inverse hr hb).mp ⟨rfl, rfl⟩
  rw [readPixel_eq_bitAt hr, readPixel_eq_bitAt hr, h _ _ hb, if_pos ha, hx, hy]

end Sys2Proof.Machine
end

