-- ==== Sys2Proof/Laws/Rect.lean ====
section
/-! SUPPORT. The rectangle fill: the picture it paints (41_rectangle.md R141), the canonical form kept, and its equality
with the loops of the write operator (R140). -/

namespace Sys2Proof.Machine

/-! ### One page -/

theorem pageMask_getLsbD (y0 y1 p : Nat) {b : Nat} (hb : b < 8) :
    (pageMask y0 y1 p).getLsbD b = decide (y0 ≤ 8 * p + b ∧ 8 * p + b < y1) := by
  have step : ∀ n, n ≤ 8 →
      ((List.range n).foldl
        (fun m b => if y0 ≤ 8 * p + b ∧ 8 * p + b < y1 then m ||| 1#8 <<< b else m) (0 : Byte)).getLsbD b =
      decide (b < n ∧ y0 ≤ 8 * p + b ∧ 8 * p + b < y1) := by
    intro n
    induction n with
    | zero => intro _; simp
    | succ n ih =>
      intro hn
      have hone : ((1#8 <<< n : Byte)).getLsbD b = decide (b = n) := by
        have hn' : n < 8 := by omega
        interval_cases n <;> interval_cases b <;> rfl
      rw [List.range_succ, List.foldl_append]
      simp only [List.foldl_cons, List.foldl_nil]
      split_ifs with hc
      · rw [BitVec.getLsbD_or, ih (by omega), hone, ← Bool.decide_or, decide_eq_decide]
        constructor
        · rintro (h | h)
          · exact ⟨by omega, h.2⟩
          · subst h; exact ⟨by omega, hc⟩
        · rintro ⟨h1, h2⟩
          by_cases hbn : b = n
          · exact .inr hbn
          · exact .inl ⟨by omega, h2⟩
      · rw [ih (by omega), decide_eq_decide]
        constructor
        · exact fun h => ⟨by omega, h.2⟩
        · rintro ⟨h1, h2⟩
          refine ⟨?_, h2⟩
          by_contra hge
          have hbn : b = n := by omega
          subst hbn; exact hc h2
  rw [pageMask, step 8 le_rfl, decide_eq_decide]
  exact ⟨fun h => h.2, fun h => ⟨hb, h⟩⟩

/-- The cells of the rectangle `[x0, x1) × [y0, y1)` on the rows of the pages from `p` to below `q`. -/
def bandMap (x0 x1 y0 y1 p q : Nat) (d : Directive) (px py : Int) : Directive :=
  if ((x0 : Int) ≤ px ∧ px < x1) ∧ ((y0 : Int) ≤ py ∧ py < y1) ∧ 8 * (p : Int) ≤ py ∧ py < 8 * (q : Int) then d
  else .ignore

theorem wf_fillPage {fb : Memory} (h : Memory.wf fb = true) {x0 x1 p : Nat} (hx : x1 ≤ 128) (hp : p < 8)
    (y0 y1 : Nat) (d : Directive) : Memory.wf (fillPage x0 x1 y0 y1 d p fb) = true := by
  unfold fillPage
  by_cases hlt : x0 ≤ x1
  · exact Memory.wf_modifyRun h (by simp only [WIDTH, FB_BYTES]; omega) _
  · obtain ⟨hs, hz⟩ := (Memory.wf_iff fb).mp h
    obtain ⟨h1, h2⟩ := Memory.modifyRun_spec (x1 - x0) (a := p * WIDTH + x0)
      (fun b => applyMask d b (pageMask y0 y1 p)) hs (Nat.zero_le _)
    exact (Memory.wf_iff _).mpr ⟨h1, fun a ha => by rw [h2, if_neg (by omega), hz a ha]⟩

theorem paints_fillPage {fb : Memory} (h : Memory.wf fb = true) {x0 x1 p : Nat} (hx : x1 ≤ 128) (hp : p < 8)
    (y0 y1 : Nat) (d : Directive) :
    Paints fb (fillPage x0 x1 y0 y1 d p fb) (bandMap x0 x1 y0 y1 p (p + 1) d) := by
  intro a b hb
  unfold fillPage bitAt bandMap
  rw [Memory.read_modifyRun h]
  simp only [WIDTH, FB_BYTES]
  by_cases hin : p * 128 + x0 ≤ a ∧ a < p * 128 + x0 + (x1 - x0)
  · have ha : a < 1024 := by omega
    have hpage : a / 128 = p := by omega
    rw [if_pos hin, if_pos ha, applyMask_getLsbD d _ _ hb, pageMask_getLsbD y0 y1 p hb, hpage]
    by_cases hrow : y0 ≤ 8 * p + b ∧ 8 * p + b < y1
    · rw [if_pos (by simpa using hrow), if_pos (by omega)]
    · rw [if_neg (by simpa using hrow), if_neg (by omega), onBit_ignore]
  · rw [if_neg hin]
    split_ifs with ha hc
    · omega
    · rfl
    · rfl

/-! ### The clipped rectangle -/

theorem fillClipped_spec {fb : Memory} (h : Memory.wf fb = true) {x0 x1 y0 y1 : Nat} (hx : x1 ≤ 128)
    (hy : y1 ≤ 64) (d : Directive) :
    Memory.wf (fillClipped x0 x1 y0 y1 d fb) = true ∧
    Paints fb (fillClipped x0 x1 y0 y1 d fb) (rectMap x0 y0 ((x1 : Int) - x0) ((y1 : Int) - y0) d) := by
  have pages : ∀ n, y0 / 8 + n ≤ 8 →
      Memory.wf ((List.range n).foldl (fun fb k => fillPage x0 x1 y0 y1 d (y0 / 8 + k) fb) fb) = true ∧
      Paints fb ((List.range n).foldl (fun fb k => fillPage x0 x1 y0 y1 d (y0 / 8 + k) fb) fb)
        (bandMap x0 x1 y0 y1 (y0 / 8) (y0 / 8 + n) d) := by
    intro n
    induction n with
    | zero =>
      intro _
      refine ⟨h, (Paints.refl fb).of_eq fun px py _ => ?_⟩
      rw [bandMap, if_neg (by omega)]
    | succ n ih =>
      intro hn
      obtain ⟨hw, hp⟩ := ih (by omega)
      rw [List.range_succ, List.foldl_append]
      simp only [List.foldl_cons, List.foldl_nil]
      refine ⟨wf_fillPage hw hx (by omega) y0 y1 d,
        (hp.trans (paints_fillPage hw hx (by omega) y0 y1 d) fun px py => ?_).of_eq fun px py _ => ?_⟩
      · simp only [bandMap]
        by_cases hc : py < 8 * ((y0 / 8 + n : Nat) : Int)
        · right; rw [if_neg (by omega)]
        · left; rw [if_neg (by omega)]
      · by_cases hc : py < 8 * ((y0 / 8 + n : Nat) : Int)
        · rw [overlay_left (by rw [bandMap, if_neg (by omega)])]
          simp only [bandMap]; split_ifs <;> first | rfl | omega
        · rw [overlay_right (by rw [bandMap, if_neg (by omega)])]
          simp only [bandMap]; split_ifs <;> first | rfl | omega
  by_cases hle : y0 / 8 ≤ (y1 + 7) / 8
  · obtain ⟨hw, hp⟩ := pages ((y1 + 7) / 8 - y0 / 8) (by omega)
    refine ⟨hw, hp.of_eq fun px py _ => ?_⟩
    simp only [bandMap, rectMap]
    split_ifs <;> first | rfl | omega
  · have hzero : (y1 + 7) / 8 - y0 / 8 = 0 := by omega
    rw [fillClipped, hzero]
    refine ⟨h, (Paints.refl fb).of_eq fun px py _ => ?_⟩
    rw [rectMap, if_neg (by omega)]

/-! ### The rectangle -/

theorem rectMap_empty {x y w h : Int} (hwh : w ≤ 0 ∨ h ≤ 0) (d : Directive) (px py : Int) :
    rectMap x y w h d px py = .ignore := by
  rw [rectMap, if_neg (by omega)]

/-- The rectangle fill keeps the canonical form and paints its rectangle (R141). -/
theorem fillRect_spec {fb : Memory} (hwf : Memory.wf fb = true) (x y w h : Int) (d : Directive) :
    Memory.wf (fillRect x y w h d fb) = true ∧ Paints fb (fillRect x y w h d fb) (rectMap x y w h d) := by
  have clipped : ∀ e : Directive,
      Memory.wf (fillClipped (max x 0).toNat (min (x + w) WIDTH).toNat (max y 0).toNat (min (y + h) HEIGHT).toNat e fb)
        = true ∧
      Paints fb
        (fillClipped (max x 0).toNat (min (x + w) WIDTH).toNat (max y 0).toNat (min (y + h) HEIGHT).toNat e fb)
        (rectMap x y w h e) := by
    intro e
    obtain ⟨hw, hp⟩ := fillClipped_spec hwf (x0 := (max x 0).toNat) (x1 := (min (x + w) WIDTH).toNat)
      (y0 := (max y 0).toNat) (y1 := (min (y + h) HEIGHT).toNat) (by simp only [WIDTH]; omega)
      (by simp only [HEIGHT]; omega) e
    refine ⟨hw, hp.of_eq fun px py hpan => ?_⟩
    simp only [rectMap, WIDTH, HEIGHT]
    split_ifs <;> first | rfl | omega
  cases d with
  | set => exact clipped .set
  | clear => exact clipped .clear
  | invert => exact clipped .invert
  | ignore =>
    refine ⟨hwf, (Paints.refl fb).of_eq fun px py _ => ?_⟩
    simp [rectMap]

/-! ### The loops -/

theorem fillRow_spec {fb : Memory} (hwf : Memory.wf fb = true) (x cy : Int) (d : Directive) (n : Nat) :
    Memory.wf ((List.range n).foldl (fun fb (k : Nat) => writePixel (x + k) cy d fb) fb) = true ∧
    Paints fb ((List.range n).foldl (fun fb (k : Nat) => writePixel (x + k) cy d fb) fb) (rectMap x cy n 1 d) := by
  induction n with
  | zero => exact ⟨hwf, (Paints.refl fb).of_eq fun px py _ => (rectMap_empty (.inl (by simp)) d px py).symm⟩
  | succ n ih =>
    obtain ⟨hw, hp⟩ := ih
    rw [List.range_succ, List.foldl_append]
    simp only [List.foldl_cons, List.foldl_nil]
    refine ⟨wf_writePixel hw _ _ _,
      (hp.trans (paints_writePixel hw (x + n) cy d) fun px py => ?_).of_eq fun px py _ => ?_⟩
    · simp only [rectMap, pixelMap]
      by_cases hc : px = x + n
      · left; rw [if_neg (by omega)]
      · right; rw [if_neg (by omega)]
    · by_cases hc : px = x + n
      · rw [overlay_right (by rw [rectMap, if_neg (by omega)])]
        simp only [rectMap, pixelMap]; split_ifs <;> first | rfl | omega
      · rw [overlay_left (by rw [pixelMap, if_neg (by omega)])]
        simp only [rectMap]; split_ifs <;> first | rfl | omega

theorem fillLoops_spec {fb : Memory} (hwf : Memory.wf fb = true) (x y : Int) (d : Directive) (m n : Nat) :
    Memory.wf ((List.range n).foldl
      (fun fb (j : Nat) => (List.range m).foldl (fun fb (k : Nat) => writePixel (x + k) (y + j) d fb) fb) fb) = true ∧
    Paints fb ((List.range n).foldl
      (fun fb (j : Nat) => (List.range m).foldl (fun fb (k : Nat) => writePixel (x + k) (y + j) d fb) fb) fb)
      (rectMap x y m n d) := by
  induction n with
  | zero => exact ⟨hwf, (Paints.refl fb).of_eq fun px py _ => (rectMap_empty (.inr (by simp)) d px py).symm⟩
  | succ n ih =>
    obtain ⟨hw, hp⟩ := ih
    rw [List.range_succ, List.foldl_append]
    simp only [List.foldl_cons, List.foldl_nil]
    obtain ⟨hw', hp'⟩ := fillRow_spec hw x (y + n) d m
    refine ⟨hw', (hp.trans hp' fun px py => ?_).of_eq fun px py _ => ?_⟩
    · simp only [rectMap]
      by_cases hc : py = y + n
      · left; rw [if_neg (by omega)]
      · right; rw [if_neg (by omega)]
    · by_cases hc : py = y + n
      · rw [overlay_right (by rw [rectMap, if_neg (by omega)])]
        simp only [rectMap]; split_ifs <;> first | rfl | omega
      · rw [overlay_left (by rw [rectMap, if_neg (by omega)])]
        simp only [rectMap]; split_ifs <;> first | rfl | omega

theorem fillRectLoops_spec {fb : Memory} (hwf : Memory.wf fb = true) (x y w h : Int) (d : Directive) :
    Memory.wf (fillRectLoops x y w h d fb) = true ∧
    Paints fb (fillRectLoops x y w h d fb) (rectMap x y w h d) := by
  have hrange : ∀ a n : Int, a + n - a = n := by intro a n; omega
  simp only [fillRectLoops, span, List.foldl_map, hrange]
  obtain ⟨hw, hp⟩ := fillLoops_spec hwf x y d w.toNat h.toNat
  refine ⟨hw, hp.of_eq fun px py _ => ?_⟩
  simp only [rectMap]
  split_ifs <;> first | rfl | omega

/-- The clipped, page-wise fill is the loop of the write operator over the whole rectangle (R140, R141). -/
theorem fillRect_eq_loops {fb : Memory} (hwf : Memory.wf fb = true) (x y w h : Int) (d : Directive) :
    fillRect x y w h d fb = fillRectLoops x y w h d fb := by
  obtain ⟨hw1, hp1⟩ := fillRect_spec hwf x y w h d
  obtain ⟨hw2, hp2⟩ := fillRectLoops_spec hwf x y w h d
  exact hp1.unique hp2 hw1 hw2

end Sys2Proof.Machine
end

