-- ==== Sys2Proof/Laws/Glyph.lean ====
section
/-! SUPPORT. The glyph rasterizer: the picture it paints (42_glyph.md R156) and the canonical form kept. -/

namespace Sys2Proof.Machine

/-- A cell of the grid of `s × s` squares from `a` on, by its number. -/
theorem div_eq_iff_cell {s a p q : Int} (hs : 1 ≤ s) :
    (p - a) / s = q ↔ a + s * q ≤ p ∧ p < a + s * q + s := by
  constructor
  · rintro rfl
    have h1 := Int.emod_add_mul_ediv (p - a) s
    have h2 := Int.emod_nonneg (p - a) (b := s) (by omega)
    have h3 := Int.emod_lt_of_pos (p - a) (b := s) (by omega)
    omega
  · rintro ⟨h1, h2⟩
    rw [show p - a = (p - a - s * q) + s * q by ring, Int.add_mul_ediv_left _ _ (by omega),
      Int.ediv_eq_zero_of_lt (by omega) (by omega)]
    omega

/-- A range of `n` cells of the grid from `a` on. -/
theorem range_iff_cells {s a p : Int} (hs : 1 ≤ s) (n : Int) :
    a ≤ p ∧ p < a + s * n ↔ 0 ≤ (p - a) / s ∧ (p - a) / s < n := by
  rw [Int.ediv_lt_iff_lt_mul (by omega), Int.ediv_nonneg_iff_of_pos (by omega), mul_comm n s]
  omega

/-- The picture of the cells of rendered rows `lo` to `hi - 1` and the first `cols` rendered columns, both counted from
the first rendered one. -/
def cellsMap (x y : Int) (g : Glyph) (s : Int) (d : Directive) (lo hi cols : Nat) (px py : Int) : Directive :=
  if (0 ≤ (px - x) / s ∧ (px - x) / s < cols) ∧ (lo : Int) ≤ (py - y) / s ∧ (py - y) / s < hi then
    cellColor (glyphBit g (1 + ((py - y) / s).toNat) (2 + ((px - x) / s).toNat)) d
  else .ignore

theorem rectMap_cell {s : Int} (hs : 1 ≤ s) (x y : Int) (e : Directive) (q r : Int) (px py : Int) :
    rectMap (x + s * q) (y + s * r) s s e px py =
      if (px - x) / s = q ∧ (py - y) / s = r then e else .ignore := by
  simp only [rectMap, div_eq_iff_cell hs]

theorem cellColor_cases (v : Bool) (d : Directive) : cellColor v d = d ∨ cellColor v d = .ignore := by
  cases d <;> cases v <;> simp [cellColor]

theorem drawGlyphRow_spec {fb : Memory} (hwf : Memory.wf fb = true) (x y : Int) (g : Glyph) {s : Int} (hs : 1 ≤ s)
    (d : Directive) (r : Nat) :
    Memory.wf (drawGlyphRow x y g s d (V_OFF + r) fb) = true ∧
    Paints fb (drawGlyphRow x y g s d (V_OFF + r) fb) (cellsMap x y g s d r (r + 1) 6) := by
  have cols : ∀ n, Memory.wf ((List.range n).foldl (fun fb k =>
        fillRect (x + s * (((H_OFF + k : Nat) : Int) - H_OFF)) (y + s * (((V_OFF + r : Nat) : Int) - V_OFF)) s s
          (cellColor (glyphBit g (V_OFF + r) (H_OFF + k)) d) fb) fb) = true ∧
      Paints fb ((List.range n).foldl (fun fb k =>
        fillRect (x + s * (((H_OFF + k : Nat) : Int) - H_OFF)) (y + s * (((V_OFF + r : Nat) : Int) - V_OFF)) s s
          (cellColor (glyphBit g (V_OFF + r) (H_OFF + k)) d) fb) fb) (cellsMap x y g s d r (r + 1) n) := by
    intro n
    induction n with
    | zero =>
      refine ⟨hwf, (Paints.refl fb).of_eq fun px py _ => ?_⟩
      rw [cellsMap, if_neg (by omega)]
    | succ n ih =>
      obtain ⟨hw, hp⟩ := ih
      rw [List.range_succ, List.foldl_append]
      simp only [List.foldl_cons, List.foldl_nil]
      obtain ⟨hw', hp'⟩ := fillRect_spec hw (x + s * (((H_OFF + n : Nat) : Int) - H_OFF))
        (y + s * (((V_OFF + r : Nat) : Int) - V_OFF)) s s (cellColor (glyphBit g (V_OFF + r) (H_OFF + n)) d)
      have hcell : ∀ px py : Int, rectMap (x + s * (((H_OFF + n : Nat) : Int) - H_OFF))
          (y + s * (((V_OFF + r : Nat) : Int) - V_OFF)) s s (cellColor (glyphBit g (V_OFF + r) (H_OFF + n)) d) px py =
          if (px - x) / s = n ∧ (py - y) / s = r then cellColor (glyphBit g (1 + r) (2 + n)) d else .ignore := by
        intro px py
        rw [rectMap_cell hs]
        simp only [V_OFF, H_OFF, Nat.cast_add, Nat.cast_one, Nat.cast_ofNat, add_sub_cancel_left]
      refine ⟨hw', (hp.trans hp' fun px py => ?_).of_eq fun px py _ => ?_⟩
      · rw [hcell, cellsMap]
        by_cases hc : (px - x) / s = n
        · left; rw [if_neg (by omega)]
        · right; rw [if_neg (by omega)]
      · by_cases hc : (px - x) / s = n
        · rw [overlay_right (by rw [cellsMap, if_neg (by omega)]), hcell, cellsMap]
          by_cases hr : (py - y) / s = r
          · rw [if_pos ⟨hc, hr⟩, if_pos (by omega), hc, hr, Int.toNat_natCast, Int.toNat_natCast]
          · rw [if_neg (by omega), if_neg (by omega)]
        · rw [overlay_left (by rw [hcell, if_neg (by omega)])]
          simp only [cellsMap]; split_ifs <;> first | rfl | omega
  exact cols 6

/-- Drawing a glyph keeps the canonical form and paints the glyph's picture (R156, R158). -/
theorem drawGlyph_spec {fb : Memory} (hwf : Memory.wf fb = true) (x y : Int) (g : Glyph) (s : Int) (d : Directive) :
    Memory.wf (drawGlyph x y g s d fb) = true ∧ Paints fb (drawGlyph x y g s d fb) (glyphMap x y g s d) := by
  by_cases hs : 1 ≤ s
  · have rows : ∀ n, Memory.wf ((List.range n).foldl (fun fb k => drawGlyphRow x y g s d (V_OFF + k) fb) fb) = true ∧
        Paints fb ((List.range n).foldl (fun fb k => drawGlyphRow x y g s d (V_OFF + k) fb) fb)
          (cellsMap x y g s d 0 n 6) := by
      intro n
      induction n with
      | zero =>
        refine ⟨hwf, (Paints.refl fb).of_eq fun px py _ => ?_⟩
        rw [cellsMap, if_neg (by omega)]
      | succ n ih =>
        obtain ⟨hw, hp⟩ := ih
        rw [List.range_succ, List.foldl_append]
        simp only [List.foldl_cons, List.foldl_nil]
        obtain ⟨hw', hp'⟩ := drawGlyphRow_spec hw x y g hs d n
        refine ⟨hw', (hp.trans hp' fun px py => ?_).of_eq fun px py _ => ?_⟩
        · simp only [cellsMap]
          by_cases hc : (py - y) / s = n
          · left; rw [if_neg (by omega)]
          · right; rw [if_neg (by omega)]
        · by_cases hc : (py - y) / s = n
          · rw [overlay_right (by rw [cellsMap, if_neg (by omega)])]
            simp only [cellsMap]; split_ifs <;> first | rfl | omega
          · rw [overlay_left (by rw [cellsMap, if_neg (by omega)])]
            simp only [cellsMap]; split_ifs <;> first | rfl | omega
    obtain ⟨hw, hp⟩ := rows 7
    refine ⟨hw, hp.of_eq fun px py _ => ?_⟩
    have hx := range_iff_cells (a := x) (p := px) hs 6
    have hy := range_iff_cells (a := y) (p := py) hs 7
    simp only [cellsMap, glyphMap]
    split_ifs <;> first | rfl | omega
  · have hempty : ∀ (x' y' : Int) (e : Directive) {f : Memory}, Memory.wf f = true → fillRect x' y' s s e f = f := by
      intro x' y' e f hf
      obtain ⟨hw, hp⟩ := fillRect_spec hf x' y' s s e
      exact (hp.of_eq fun px py _ => rectMap_empty (.inl (by omega)) e px py).unique (Paints.refl f) hw hf
    have hrow : ∀ i {f : Memory}, Memory.wf f = true → drawGlyphRow x y g s d i f = f := by
      intro i f hf
      simp only [drawGlyphRow, List.range_succ, List.range_zero, List.nil_append, List.foldl_append, List.foldl_cons,
        List.foldl_nil, hempty _ _ _ hf]
    have hall : drawGlyph x y g s d fb = fb := by
      simp only [drawGlyph, List.range_succ, List.range_zero, List.nil_append, List.foldl_append, List.foldl_cons,
        List.foldl_nil, hrow _ hwf]
    rw [hall]
    refine ⟨hwf, (Paints.refl fb).of_eq fun px py _ => ?_⟩
    rw [glyphMap, if_neg (by omega)]

end Sys2Proof.Machine
end

