-- ==== Sys2Proof/Laws/State.lean ====
section
/-! SUPPORT. What each update of the state leaves in each field, one lemma per field per update, and the shared
operations `orFault` and reset. -/

namespace Sys2Proof.Machine

/-! ### `setFb` -/

@[simp] theorem State.setFb_fb (s : State) (fb : Memory) : (s.setFb fb).fb = fb := rfl
@[simp] theorem State.setFb_curX (s : State) (fb : Memory) : (s.setFb fb).curX = s.curX := rfl
@[simp] theorem State.setFb_curY (s : State) (fb : Memory) : (s.setFb fb).curY = s.curY := rfl
@[simp] theorem State.setFb_fontSize (s : State) (fb : Memory) : (s.setFb fb).fontSize = s.fontSize := rfl
@[simp] theorem State.setFb_color (s : State) (fb : Memory) : (s.setFb fb).color = s.color := rfl
@[simp] theorem State.setFb_pc (s : State) (fb : Memory) : (s.setFb fb).pc = s.pc := rfl
@[simp] theorem State.setFb_fault (s : State) (fb : Memory) : (s.setFb fb).fault = s.fault := rfl
@[simp] theorem State.setFb_faultPc (s : State) (fb : Memory) : (s.setFb fb).faultPc = s.faultPc := rfl
@[simp] theorem State.setFb_rsp (s : State) (fb : Memory) : (s.setFb fb).rsp = s.rsp := rfl
@[simp] theorem State.setFb_tx (s : State) (fb : Memory) : (s.setFb fb).tx = s.tx := rfl
@[simp] theorem State.setFb_cmd (s : State) (fb : Memory) : (s.setFb fb).cmd = s.cmd := rfl
@[simp] theorem State.setFb_cfg (s : State) (fb : Memory) : (s.setFb fb).cfg = s.cfg := rfl
@[simp] theorem State.setFb_acks (s : State) (fb : Memory) : (s.setFb fb).acks = s.acks := rfl

/-! ### `setCursor` -/

@[simp] theorem State.setCursor_fb (s : State) (x y : Half) : (s.setCursor x y).fb = s.fb := rfl
@[simp] theorem State.setCursor_curX (s : State) (x y : Half) : (s.setCursor x y).curX = x := rfl
@[simp] theorem State.setCursor_curY (s : State) (x y : Half) : (s.setCursor x y).curY = y := rfl
@[simp] theorem State.setCursor_fontSize (s : State) (x y : Half) : (s.setCursor x y).fontSize = s.fontSize := rfl
@[simp] theorem State.setCursor_color (s : State) (x y : Half) : (s.setCursor x y).color = s.color := rfl
@[simp] theorem State.setCursor_pc (s : State) (x y : Half) : (s.setCursor x y).pc = s.pc := rfl
@[simp] theorem State.setCursor_fault (s : State) (x y : Half) : (s.setCursor x y).fault = s.fault := rfl
@[simp] theorem State.setCursor_faultPc (s : State) (x y : Half) : (s.setCursor x y).faultPc = s.faultPc := rfl
@[simp] theorem State.setCursor_rsp (s : State) (x y : Half) : (s.setCursor x y).rsp = s.rsp := rfl
@[simp] theorem State.setCursor_tx (s : State) (x y : Half) : (s.setCursor x y).tx = s.tx := rfl
@[simp] theorem State.setCursor_cmd (s : State) (x y : Half) : (s.setCursor x y).cmd = s.cmd := rfl
@[simp] theorem State.setCursor_cfg (s : State) (x y : Half) : (s.setCursor x y).cfg = s.cfg := rfl
@[simp] theorem State.setCursor_acks (s : State) (x y : Half) : (s.setCursor x y).acks = s.acks := rfl

/-! ### `setFontSize` -/

@[simp] theorem State.setFontSize_fb (s : State) (size : Half) : (s.setFontSize size).fb = s.fb := rfl
@[simp] theorem State.setFontSize_curX (s : State) (size : Half) : (s.setFontSize size).curX = s.curX := rfl
@[simp] theorem State.setFontSize_curY (s : State) (size : Half) : (s.setFontSize size).curY = s.curY := rfl
@[simp] theorem State.setFontSize_fontSize (s : State) (size : Half) : (s.setFontSize size).fontSize = size := rfl
@[simp] theorem State.setFontSize_color (s : State) (size : Half) : (s.setFontSize size).color = s.color := rfl
@[simp] theorem State.setFontSize_pc (s : State) (size : Half) : (s.setFontSize size).pc = s.pc := rfl
@[simp] theorem State.setFontSize_fault (s : State) (size : Half) : (s.setFontSize size).fault = s.fault := rfl
@[simp] theorem State.setFontSize_faultPc (s : State) (size : Half) : (s.setFontSize size).faultPc = s.faultPc := rfl
@[simp] theorem State.setFontSize_rsp (s : State) (size : Half) : (s.setFontSize size).rsp = s.rsp := rfl
@[simp] theorem State.setFontSize_tx (s : State) (size : Half) : (s.setFontSize size).tx = s.tx := rfl
@[simp] theorem State.setFontSize_cmd (s : State) (size : Half) : (s.setFontSize size).cmd = s.cmd := rfl
@[simp] theorem State.setFontSize_cfg (s : State) (size : Half) : (s.setFontSize size).cfg = s.cfg := rfl
@[simp] theorem State.setFontSize_acks (s : State) (size : Half) : (s.setFontSize size).acks = s.acks := rfl

/-! ### `setColor` -/

@[simp] theorem State.setColor_fb (s : State) (code : BitVec 2) : (s.setColor code).fb = s.fb := rfl
@[simp] theorem State.setColor_curX (s : State) (code : BitVec 2) : (s.setColor code).curX = s.curX := rfl
@[simp] theorem State.setColor_curY (s : State) (code : BitVec 2) : (s.setColor code).curY = s.curY := rfl
@[simp] theorem State.setColor_fontSize (s : State) (code : BitVec 2) : (s.setColor code).fontSize = s.fontSize := rfl
@[simp] theorem State.setColor_color (s : State) (code : BitVec 2) : (s.setColor code).color = code := rfl
@[simp] theorem State.setColor_pc (s : State) (code : BitVec 2) : (s.setColor code).pc = s.pc := rfl
@[simp] theorem State.setColor_fault (s : State) (code : BitVec 2) : (s.setColor code).fault = s.fault := rfl
@[simp] theorem State.setColor_faultPc (s : State) (code : BitVec 2) : (s.setColor code).faultPc = s.faultPc := rfl
@[simp] theorem State.setColor_rsp (s : State) (code : BitVec 2) : (s.setColor code).rsp = s.rsp := rfl
@[simp] theorem State.setColor_tx (s : State) (code : BitVec 2) : (s.setColor code).tx = s.tx := rfl
@[simp] theorem State.setColor_cmd (s : State) (code : BitVec 2) : (s.setColor code).cmd = s.cmd := rfl
@[simp] theorem State.setColor_cfg (s : State) (code : BitVec 2) : (s.setColor code).cfg = s.cfg := rfl
@[simp] theorem State.setColor_acks (s : State) (code : BitVec 2) : (s.setColor code).acks = s.acks := rfl

/-! ### `pushRsp` -/

@[simp] theorem State.pushRsp_fb (s : State) (b : Byte) : (s.pushRsp b).fb = s.fb := rfl
@[simp] theorem State.pushRsp_curX (s : State) (b : Byte) : (s.pushRsp b).curX = s.curX := rfl
@[simp] theorem State.pushRsp_curY (s : State) (b : Byte) : (s.pushRsp b).curY = s.curY := rfl
@[simp] theorem State.pushRsp_fontSize (s : State) (b : Byte) : (s.pushRsp b).fontSize = s.fontSize := rfl
@[simp] theorem State.pushRsp_color (s : State) (b : Byte) : (s.pushRsp b).color = s.color := rfl
@[simp] theorem State.pushRsp_pc (s : State) (b : Byte) : (s.pushRsp b).pc = s.pc := rfl
@[simp] theorem State.pushRsp_fault (s : State) (b : Byte) : (s.pushRsp b).fault = s.fault := rfl
@[simp] theorem State.pushRsp_faultPc (s : State) (b : Byte) : (s.pushRsp b).faultPc = s.faultPc := rfl
@[simp] theorem State.pushRsp_rsp (s : State) (b : Byte) : (s.pushRsp b).rsp = s.rsp ++ [b] := rfl
@[simp] theorem State.pushRsp_tx (s : State) (b : Byte) : (s.pushRsp b).tx = s.tx := rfl
@[simp] theorem State.pushRsp_cmd (s : State) (b : Byte) : (s.pushRsp b).cmd = s.cmd := rfl
@[simp] theorem State.pushRsp_cfg (s : State) (b : Byte) : (s.pushRsp b).cfg = s.cfg := rfl
@[simp] theorem State.pushRsp_acks (s : State) (b : Byte) : (s.pushRsp b).acks = s.acks := rfl

/-! ### `pushTx` -/

@[simp] theorem State.pushTx_fb (s : State) (payload : List Byte) : (s.pushTx payload).fb = s.fb := rfl
@[simp] theorem State.pushTx_curX (s : State) (payload : List Byte) : (s.pushTx payload).curX = s.curX := rfl
@[simp] theorem State.pushTx_curY (s : State) (payload : List Byte) : (s.pushTx payload).curY = s.curY := rfl
@[simp] theorem State.pushTx_fontSize (s : State) (payload : List Byte) : (s.pushTx payload).fontSize = s.fontSize := rfl
@[simp] theorem State.pushTx_color (s : State) (payload : List Byte) : (s.pushTx payload).color = s.color := rfl
@[simp] theorem State.pushTx_pc (s : State) (payload : List Byte) : (s.pushTx payload).pc = s.pc := rfl
@[simp] theorem State.pushTx_fault (s : State) (payload : List Byte) : (s.pushTx payload).fault = s.fault := rfl
@[simp] theorem State.pushTx_faultPc (s : State) (payload : List Byte) : (s.pushTx payload).faultPc = s.faultPc := rfl
@[simp] theorem State.pushTx_rsp (s : State) (payload : List Byte) : (s.pushTx payload).rsp = s.rsp := rfl
@[simp] theorem State.pushTx_tx (s : State) (payload : List Byte) : (s.pushTx payload).tx = s.tx ++ [⟨s.cfg.devAddr, payload⟩] := rfl
@[simp] theorem State.pushTx_cmd (s : State) (payload : List Byte) : (s.pushTx payload).cmd = s.cmd := rfl
@[simp] theorem State.pushTx_cfg (s : State) (payload : List Byte) : (s.pushTx payload).cfg = s.cfg := rfl
@[simp] theorem State.pushTx_acks (s : State) (payload : List Byte) : (s.pushTx payload).acks = s.acks := rfl

/-! ### `advance` -/

@[simp] theorem State.advance_fb (s : State) (len : Nat) : (s.advance len).fb = s.fb := rfl
@[simp] theorem State.advance_curX (s : State) (len : Nat) : (s.advance len).curX = s.curX := rfl
@[simp] theorem State.advance_curY (s : State) (len : Nat) : (s.advance len).curY = s.curY := rfl
@[simp] theorem State.advance_fontSize (s : State) (len : Nat) : (s.advance len).fontSize = s.fontSize := rfl
@[simp] theorem State.advance_color (s : State) (len : Nat) : (s.advance len).color = s.color := rfl
@[simp] theorem State.advance_pc (s : State) (len : Nat) : (s.advance len).pc = s.pc + len := rfl
@[simp] theorem State.advance_fault (s : State) (len : Nat) : (s.advance len).fault = s.fault := rfl
@[simp] theorem State.advance_faultPc (s : State) (len : Nat) : (s.advance len).faultPc = s.faultPc := rfl
@[simp] theorem State.advance_rsp (s : State) (len : Nat) : (s.advance len).rsp = s.rsp := rfl
@[simp] theorem State.advance_tx (s : State) (len : Nat) : (s.advance len).tx = s.tx := rfl
@[simp] theorem State.advance_cmd (s : State) (len : Nat) : (s.advance len).cmd = s.cmd := rfl
@[simp] theorem State.advance_cfg (s : State) (len : Nat) : (s.advance len).cfg = s.cfg := rfl
@[simp] theorem State.advance_acks (s : State) (len : Nat) : (s.advance len).acks = s.acks := rfl

/-! ### `takeFault` -/

@[simp] theorem State.takeFault_fb (s : State) (c : FaultCause) : (s.takeFault c).fb = s.fb := rfl
@[simp] theorem State.takeFault_curX (s : State) (c : FaultCause) : (s.takeFault c).curX = s.curX := rfl
@[simp] theorem State.takeFault_curY (s : State) (c : FaultCause) : (s.takeFault c).curY = s.curY := rfl
@[simp] theorem State.takeFault_fontSize (s : State) (c : FaultCause) : (s.takeFault c).fontSize = s.fontSize := rfl
@[simp] theorem State.takeFault_color (s : State) (c : FaultCause) : (s.takeFault c).color = s.color := rfl
@[simp] theorem State.takeFault_pc (s : State) (c : FaultCause) : (s.takeFault c).pc = s.pc := rfl
@[simp] theorem State.takeFault_fault (s : State) (c : FaultCause) : (s.takeFault c).fault = c.code := rfl
@[simp] theorem State.takeFault_faultPc (s : State) (c : FaultCause) : (s.takeFault c).faultPc = s.pc := rfl
@[simp] theorem State.takeFault_rsp (s : State) (c : FaultCause) : (s.takeFault c).rsp = s.rsp := rfl
@[simp] theorem State.takeFault_tx (s : State) (c : FaultCause) : (s.takeFault c).tx = s.tx := rfl
@[simp] theorem State.takeFault_cmd (s : State) (c : FaultCause) : (s.takeFault c).cmd = s.cmd := rfl
@[simp] theorem State.takeFault_cfg (s : State) (c : FaultCause) : (s.takeFault c).cfg = s.cfg := rfl
@[simp] theorem State.takeFault_acks (s : State) (c : FaultCause) : (s.takeFault c).acks = s.acks := rfl

/-! ### `orFault` -/

@[simp] theorem State.orFault_ok {α : Type} (s : State) (a : α) (k : α → Host.Outcome State Fault Refusal) :
    s.orFault (.ok a) k = k a := rfl

@[simp] theorem State.orFault_error {α : Type} (s : State) (c : FaultCause)
    (k : α → Host.Outcome State Fault Refusal) : s.orFault (.error c) k = .next (s.takeFault c) := rfl

/-- What `orFault` can answer: the fault the check raised, or what follows the check. -/
theorem State.orFault_next {α : Type} {s t : State} {r : Except FaultCause α}
    {k : α → Host.Outcome State Fault Refusal} (h : s.orFault r k = .next t) :
    (∃ c, r = .error c ∧ t = s.takeFault c) ∨ ∃ a, r = .ok a ∧ k a = .next t := by
  cases r with
  | error c => exact .inl ⟨c, rfl, by simpa using h.symm⟩
  | ok a => exact .inr ⟨a, rfl, h⟩

/-- Every fault code is one of 1 to 5 (R221). -/
theorem FaultCause.code_range (c : FaultCause) : 1 ≤ c.code.toNat ∧ c.code.toNat ≤ 5 := by
  cases c <;> simp [FaultCause.code]

@[simp] theorem FaultCause.code_ne_zero (c : FaultCause) : c.code ≠ 0#8 := by
  cases c <;> simp [FaultCause.code]

/-! ### Reset -/

@[simp] theorem State.resetOf_fb (cfg : Config) (cmd : List Byte) (acks : List Bool) :
    (State.resetOf cfg cmd acks).fb = [] := rfl
@[simp] theorem State.resetOf_curX (cfg : Config) (cmd : List Byte) (acks : List Bool) :
    (State.resetOf cfg cmd acks).curX = cfg.resetCurX := rfl
@[simp] theorem State.resetOf_curY (cfg : Config) (cmd : List Byte) (acks : List Bool) :
    (State.resetOf cfg cmd acks).curY = cfg.resetCurY := rfl
@[simp] theorem State.resetOf_fontSize (cfg : Config) (cmd : List Byte) (acks : List Bool) :
    (State.resetOf cfg cmd acks).fontSize = cfg.resetFontSize := rfl
@[simp] theorem State.resetOf_color (cfg : Config) (cmd : List Byte) (acks : List Bool) :
    (State.resetOf cfg cmd acks).color = cfg.resetColor := rfl
@[simp] theorem State.resetOf_pc (cfg : Config) (cmd : List Byte) (acks : List Bool) :
    (State.resetOf cfg cmd acks).pc = 0 := rfl
@[simp] theorem State.resetOf_fault (cfg : Config) (cmd : List Byte) (acks : List Bool) :
    (State.resetOf cfg cmd acks).fault = 0 := rfl
@[simp] theorem State.resetOf_faultPc (cfg : Config) (cmd : List Byte) (acks : List Bool) :
    (State.resetOf cfg cmd acks).faultPc = 0 := rfl
@[simp] theorem State.resetOf_rsp (cfg : Config) (cmd : List Byte) (acks : List Bool) :
    (State.resetOf cfg cmd acks).rsp = [] := rfl
@[simp] theorem State.resetOf_tx (cfg : Config) (cmd : List Byte) (acks : List Bool) :
    (State.resetOf cfg cmd acks).tx = [] := rfl
@[simp] theorem State.resetOf_cmd (cfg : Config) (cmd : List Byte) (acks : List Bool) :
    (State.resetOf cfg cmd acks).cmd = cmd := rfl
@[simp] theorem State.resetOf_cfg (cfg : Config) (cmd : List Byte) (acks : List Bool) :
    (State.resetOf cfg cmd acks).cfg = cfg := rfl
@[simp] theorem State.resetOf_acks (cfg : Config) (cmd : List Byte) (acks : List Bool) :
    (State.resetOf cfg cmd acks).acks = acks := rfl

end Sys2Proof.Machine
end

