-- ==== Sys2Proof/Laws/Layout.lean ====
section
/-! SUPPORT. Text layout: the picture a text paints (43_layout.md R167, R168), when `drawText` and `fetchGlyph` raise
`FontBounds` (R166), and when `formatInt` raises `FormatOverflow` (R171). -/

namespace Sys2Proof.Machine

/-! ### The picture of a text -/

theorem glyphMap_nonpos {s : Int} (hs : s ≤ 0) (x y : Int) (g : Glyph) (d : Directive) (px py : Int) :
    glyphMap x y g s d px py = .ignore := by
  rw [glyphMap, if_neg (by omega)]

theorem textMap_nil (cfg : Config) (x y : Int) (base : Nat) (s : Int) (d : Directive) (px py : Int) :
    textMap cfg x y [] base s d px py = .ignore := by
  rw [textMap, if_neg (by simp)]

/-- The first character's box, then the boxes of the rest one advance to the right. -/
theorem textMap_cons (cfg : Config) (x y : Int) (c : Byte) (text : List Byte) (base : Nat) {s : Int} (hs : 1 ≤ s)
    (d : Directive) (px py : Int) :
    textMap cfg x y (c :: text) base s d px py =
      if px < x + 6 * s then glyphMap x y (glyphAt cfg base c) s d px py
      else textMap cfg (x + 6 * s) y text base s d px py := by
  have hlen : 6 * s * (((c :: text).length : Nat) : Int) = 6 * s * (text.length : Int) + 6 * s := by
    rw [List.length_cons]; push_cast; ring
  have hnn : 0 ≤ 6 * s * (text.length : Int) := by positivity
  by_cases hfirst : px < x + 6 * s
  · rw [if_pos hfirst]
    by_cases hx : x ≤ px
    · have hdiv : (px - x) / (6 * s) = 0 := Int.ediv_eq_zero_of_lt (by omega) (by omega)
      rw [textMap, if_pos ⟨hx, by omega⟩, hdiv]
      simp
    · rw [textMap, if_neg (by omega), glyphMap, if_neg (by omega)]
  · rw [if_neg hfirst]
    have hdiv : (px - x) / (6 * s) = (px - (x + 6 * s)) / (6 * s) + 1 := by
      rw [show px - x = (px - (x + 6 * s)) + (6 * s) * 1 by ring, Int.add_mul_ediv_left _ _ (by omega)]
    have hq : 0 ≤ (px - (x + 6 * s)) / (6 * s) := Int.ediv_nonneg (by omega) (by omega)
    simp only [textMap, hlen, hdiv]
    by_cases hin : px < x + 6 * s + 6 * s * (text.length : Int)
    · rw [if_pos ⟨by omega, by omega⟩, if_pos ⟨by omega, hin⟩]
      congr 1
      · ring
      · rw [Int.toNat_add hq (by decide)]; simp
    · rw [if_neg (by omega), if_neg (by omega)]

/-- Drawing the characters of a text keeps the canonical form and paints the text's picture. -/
theorem drawChars_spec (cfg : Config) (y : Int) (base : Nat) (s : Int) (d : Directive) (text : List Byte) :
    ∀ {fb : Memory} (x : Int), Memory.wf fb = true →
      Memory.wf (drawChars cfg x y base s d text fb) = true ∧
      Paints fb (drawChars cfg x y base s d text fb) (textMap cfg x y text base s d) := by
  induction text with
  | nil =>
    intro fb x h
    exact ⟨h, (Paints.refl fb).of_eq fun px py _ => (textMap_nil cfg x y base s d px py).symm⟩
  | cons c text ih =>
    intro fb x h
    obtain ⟨hw1, hp1⟩ := drawGlyph_spec h x y (glyphAt cfg base c) s d
    obtain ⟨hw2, hp2⟩ := ih (x + ADVANCE * s) hw1
    have hadv : x + (ADVANCE : Int) * s = x + 6 * s := rfl
    rw [hadv] at hw2 hp2
    refine ⟨hw2, ?_⟩
    by_cases hs : 1 ≤ s
    · have hleft : ∀ px py : Int, ¬px < x + 6 * s → glyphMap x y (glyphAt cfg base c) s d px py = .ignore :=
        fun px py hc => by rw [glyphMap, if_neg (by omega)]
      have hright : ∀ px py : Int, px < x + 6 * s → textMap cfg (x + 6 * s) y text base s d px py = .ignore :=
        fun px py hc => by rw [textMap, if_neg (by omega)]
      refine (hp1.trans hp2 fun px py => ?_).of_eq fun px py _ => ?_
      · by_cases hc : px < x + 6 * s
        · exact .inr (hright px py hc)
        · exact .inl (hleft px py hc)
      · rw [textMap_cons cfg x y c text base hs]
        by_cases hc : px < x + 6 * s
        · rw [overlay_left (hright px py hc), if_pos hc]
        · rw [overlay_right (hleft px py hc), if_neg hc]
    · have hnone : ∀ (x' : Int) (t : List Byte) (px py : Int), textMap cfg x' y t base s d px py = .ignore := by
        intro x' t px py
        unfold textMap
        split_ifs
        · exact glyphMap_nonpos (by omega) _ _ _ _ _ _
        · rfl
      refine (hp1.trans hp2 fun px py => .inr (hnone _ _ _ _)).of_eq fun px py _ => ?_
      rw [overlay_left (hnone _ _ _ _), glyphMap_nonpos (by omega), hnone]

/-! ### Bounds and capacity -/

theorem glyphInFont_iff {cfg : Config} {base : Nat} {c : Byte} :
    glyphInFont cfg base c = true ↔ base + 8 * c.toNat + 7 < cfg.fontBytes := decide_eq_true_iff

theorem glyphInFont_false_iff {cfg : Config} {base : Nat} {c : Byte} :
    glyphInFont cfg base c = false ↔ cfg.fontBytes ≤ base + 8 * c.toNat + 7 :=
  decide_eq_false_iff_not.trans Nat.not_lt

/-- When every glyph lies in the font, `drawText` draws. -/
theorem drawText_ok {cfg : Config} {text : List Byte} {base : Nat}
    (h : ∀ c ∈ text, glyphInFont cfg base c = true) (x y s : Int) (d : Directive) (fb : Memory) :
    drawText cfg x y text base s d fb = .ok (drawChars cfg x y base s d text fb) := by
  unfold drawText
  rw [List.find?_eq_none.mpr fun c hc => by simp [h c hc]]

/-- When some glyph does not, it raises `FontBounds` and draws nothing. -/
theorem drawText_error {cfg : Config} {text : List Byte} {base : Nat} {c : Byte} (hc : c ∈ text)
    (hout : glyphInFont cfg base c = false) (x y s : Int) (d : Directive) (fb : Memory) :
    ∃ c', drawText cfg x y text base s d fb = .error (.fontBounds c') := by
  unfold drawText
  cases hf : text.find? fun c => !glyphInFont cfg base c with
  | none => exact absurd (List.find?_eq_none.mp hf c hc) (by simp [hout])
  | some c' => exact ⟨c', rfl⟩

/-- What `drawText` can answer. -/
theorem drawText_cases (cfg : Config) (text : List Byte) (base : Nat) (x y s : Int) (d : Directive) (fb : Memory) :
    (∃ c, drawText cfg x y text base s d fb = .error (.fontBounds c)) ∨
    ((∀ c ∈ text, glyphInFont cfg base c = true) ∧
      drawText cfg x y text base s d fb = .ok (drawChars cfg x y base s d text fb)) := by
  by_cases h : ∀ c ∈ text, glyphInFont cfg base c = true
  · exact .inr ⟨h, drawText_ok h x y s d fb⟩
  · push Not at h
    obtain ⟨c, hc, hout⟩ := h
    exact .inl (drawText_error hc (by simpa using hout) x y s d fb)

/-- What a drawn text leaves. -/
theorem drawText_spec {cfg : Config} {text : List Byte} {base : Nat} {x y s : Int} {d : Directive} {fb fb' : Memory}
    (hwf : Memory.wf fb = true) (h : drawText cfg x y text base s d fb = .ok fb') :
    Memory.wf fb' = true ∧ Paints fb fb' (textMap cfg x y text base s d) := by
  rcases drawText_cases cfg text base x y s d fb with ⟨c, he⟩ | ⟨-, ho⟩
  · rw [he] at h; cases h
  · rw [ho] at h; cases h; exact drawChars_spec cfg y base s d text x hwf

theorem fetchGlyph_ok {cfg : Config} {base : Nat} {c : Byte} (h : glyphInFont cfg base c = true) :
    fetchGlyph cfg base c = .ok (glyphAt cfg base c) := by
  rw [fetchGlyph, if_pos h]

theorem fetchGlyph_error {cfg : Config} {base : Nat} {c : Byte} (h : glyphInFont cfg base c = false) :
    fetchGlyph cfg base c = .error (.fontBounds c) := by
  rw [fetchGlyph, if_neg (by simp [h])]

theorem formatInt_ok {cfg : Config} {n : Int} (h : (decimal n).length + 1 ≤ cfg.intBufCap) :
    formatInt cfg n = .ok (decimal n) := by
  rw [formatInt, if_neg (by omega)]

theorem formatInt_error {cfg : Config} {n : Int} (h : cfg.intBufCap < (decimal n).length + 1) :
    formatInt cfg n = .error (.formatOverflow n) := by
  rw [formatInt, if_pos h]

/-! ### The digits of a number (R170) -/

/-- The digits before `acc`: digit codes, the first not '0', with the value of the number, and more than `k` of them
exactly when the number is at least `10 ^ k`. -/
theorem digitsOnto_spec (fuel : Nat) : ∀ (n : Nat) (acc : List Byte), n ≤ fuel →
    ∃ ds : List Byte, digitsOnto fuel n acc = ds ++ acc ∧
      (∀ c ∈ ds, 0x30 ≤ c.toNat ∧ c.toNat ≤ 0x39) ∧
      (0 < n → ∃ c cs, ds = c :: cs ∧ c ≠ 0x30) ∧ (n = 0 → ds = []) ∧
      ds.foldl (fun v c => 10 * v + ((c.toNat : Int) - 0x30)) 0 = n ∧
      ∀ k, 10 ^ k ≤ n ↔ k < ds.length := by
  induction fuel with
  | zero =>
    intro n acc h
    obtain rfl : n = 0 := by omega
    exact ⟨[], by simp [digitsOnto]⟩
  | succ fuel ih =>
    intro n acc h
    by_cases h0 : n = 0
    · subst h0; exact ⟨[], by simp [digitsOnto]⟩
    · obtain ⟨ds, e, hcodes, hfirst, hzero, hval, hlen⟩ := ih (n / 10) (digitCode (n % 10) :: acc) (by omega)
      have hd : (digitCode (n % 10)).toNat = 48 + n % 10 := by simp [digitCode]; omega
      refine ⟨ds ++ [digitCode (n % 10)], by simp [digitsOnto, h0, e], fun c hc => ?_, fun _ => ?_, by omega, ?_,
        fun k => ?_⟩
      · rcases List.mem_append.mp hc with hc | hc
        · exact hcodes c hc
        · rw [List.mem_singleton.mp hc]; omega
      · by_cases hq : 0 < n / 10
        · obtain ⟨c, cs, rfl, hne⟩ := hfirst hq
          exact ⟨c, cs ++ _, rfl, hne⟩
        · rw [hzero (by omega)]
          refine ⟨_, [], rfl, fun hc => ?_⟩
          have := congrArg BitVec.toNat hc
          rw [hd] at this
          simp at this
          omega
      · rw [List.foldl_append, hval]
        simp [hd]
        omega
      · simp only [List.length_append, List.length_cons, List.length_nil]
        cases k with
        | zero => simp; omega
        | succ k => have := hlen k; rw [Nat.pow_succ]; omega

/-! ### The `col` operand -/

theorem checkCol_ok {v : Byte} (h : v.toNat ≤ 3) : checkCol v = .ok (colCode v) := by
  revert v; decide

theorem checkCol_error {v : Byte} (h : 3 < v.toNat) : checkCol v = .error (.illegalOperand v) := by
  revert v; decide

end Sys2Proof.Machine
end

