-- ==== Sys2Proof/Laws/Store.lean ====
section
/-! SUPPORT. What `SYNC` and `BEGIN` append (44_store_sync.md R203 to R210). -/

namespace Sys2Proof.Machine

/-- The data transactions of a sync, for the chunks of a list. -/
theorem pushChunks (chunks : List Nat) : ∀ s : State,
    chunks.foldl (fun t c => t.pushTx (syncPayload t.fb c)) s =
      { s with tx := s.tx ++ chunks.map fun c => ⟨s.cfg.devAddr, syncPayload s.fb c⟩ } := by
  induction chunks with
  | nil => intro s; simp
  | cons c chunks ih =>
    intro s
    rw [List.foldl_cons, ih]
    simp [State.pushTx]

theorem syncPayload_eq {fb : Memory} (h : Memory.wf fb = true) (c : Nat) :
    syncPayload fb c = 0x40 :: (List.range 16).map fun k => Memory.read fb (16 * c + k) := by
  rw [syncPayload, Memory.readList_eq h]; rfl

@[simp] theorem takeRun_length (n : Nat) : ∀ (a : Nat) (m : Memory), (Memory.takeRun n a m).length = n := by
  induction n with
  | zero => intro a m; simp [Memory.takeRun]
  | succ n ih =>
    intro a m
    cases m with
    | nil => simp [Memory.takeRun, ih]
    | cons c m => simp only [Memory.takeRun]; split_ifs <;> simp [ih]

@[simp] theorem readList_length (n a : Nat) (m : Memory) : (Memory.readList n a m).length = n := by
  induction m with
  | nil => simp [Memory.readList]
  | cons c m ih => simp only [Memory.readList]; split_ifs <;> simp [ih]

@[simp] theorem syncPayload_length (fb : Memory) (c : Nat) : (syncPayload fb c).length = 17 := by
  simp [syncPayload, SYNC_CHUNK]

@[simp] theorem initPayload_length : initPayload.length = 32 := by decide

end Sys2Proof.Machine
end

