-- ==== Sys2Proof/Laws/Exec.lean ====
section
/-! SUPPORT. What `exec` and `step` can do, said once: every command answers a next state; it either took a fault, or
completed with the effect named here and advanced `PC` by the command's length. -/

namespace Sys2Proof.Machine

/-- What a command that completes does to the state before `PC` is advanced: the fields it may write, and that a
framebuffer in canonical form stays so. -/
def Effect (i : Instr) (s u : State) : Prop :=
  match i with
  | .setPixel _ _ _ | .drawRect _ _ _ _ _ | .drawChar _ _ _ _ _ | .drawStr _ _ _ _ _ _ | .drawInt _ _ _ _ _ _
  | .printStr _ | .printChar _ | .printInt _ | .clear =>
    ∃ fb, u = s.setFb fb ∧ (Memory.wf s.fb = true → Memory.wf fb = true)
  | .getPixel x y => u = s.pushRsp (responseByte (readPixel x.toInt y.toInt s.fb))
  | .setCursor x y => u = s.setCursor x y
  | .setFontSize size => u = s.setFontSize size
  | .setColor color => u = s.setColor (colCode color)
  | .sync => u = { s with tx := s.tx ++ ((List.range SYNC_CHUNKS).map (fun c =>
      (⟨s.cfg.devAddr, syncPayload s.fb c⟩ : Transaction)) ++ [⟨s.cfg.devAddr, trailingPayload⟩]) }
  | .begin => u = (s.pushTx initPayload).pushRsp (responseByte s.nextAck)

theorem checkCol_next {s t : State} {color : Byte} {k : BitVec 2 → Host.Outcome State Fault Refusal}
    (h : s.orFault (checkCol color) k = .next t) :
    (∃ c, t = s.takeFault c) ∨ (color.toNat ≤ 3 ∧ k (colCode color) = .next t) := by
  by_cases hc : color.toNat ≤ 3
  · rw [checkCol_ok hc] at h; exact .inr ⟨hc, h⟩
  · rw [checkCol_error (by omega)] at h; cases h; exact .inl ⟨_, rfl⟩

theorem drawText_next {s t : State} {cfg : Config} {x y sz : Int} {text : List Byte} {base : Nat} {d : Directive}
    {len : Nat}
    (h : s.orFault (drawText cfg x y text base sz d s.fb) (fun fb => .next ((s.setFb fb).advance len)) = .next t) :
    (∃ c, t = s.takeFault c) ∨
      ∃ fb, t = (s.setFb fb).advance len ∧ (Memory.wf s.fb = true → Memory.wf fb = true) := by
  rcases State.orFault_next h with ⟨c, -, ht⟩ | ⟨fb, hok, ht⟩
  · exact .inl ⟨c, ht⟩
  · cases ht
    exact .inr ⟨fb, rfl, fun hw => (drawText_spec hw hok).1⟩

/-- The inversion of `exec`. -/
theorem exec_next {i : Instr} {s t : State} (h : exec i s = .next t) :
    (∃ c, t = s.takeFault c) ∨ ∃ u, t = u.advance i.length ∧ Effect i s u := by
  have noFont : ∀ {len : Nat}, Host.Outcome.next (s.advance len) = (.next t : Host.Outcome State Fault Refusal) →
      ∃ u : State, t = u.advance len ∧
        ∃ fb, u = s.setFb fb ∧ (Memory.wf s.fb = true → Memory.wf fb = true) := by
    intro len h
    cases h
    exact ⟨s, rfl, s.fb, rfl, id⟩
  cases i with
  | setPixel x y color =>
    rcases checkCol_next h with hf | ⟨-, ht⟩
    · exact .inl hf
    · cases ht; exact .inr ⟨_, rfl, _, rfl, fun hw => wf_writePixel hw _ _ _⟩
  | getPixel x y => cases h; exact .inr ⟨_, rfl, rfl⟩
  | drawRect x y w h' color =>
    rcases checkCol_next h with hf | ⟨-, ht⟩
    · exact .inl hf
    · cases ht; exact .inr ⟨_, rfl, _, rfl, fun hw => (fillRect_spec hw _ _ _ _ _).1⟩
  | drawChar x y size color glyph =>
    rcases checkCol_next h with hf | ⟨-, ht⟩
    · exact .inl hf
    · cases ht; exact .inr ⟨_, rfl, _, rfl, fun hw => (drawGlyph_spec hw _ _ _ _ _).1⟩
  | drawStr x y fbase size color text =>
    rcases checkCol_next h with hf | ⟨-, ht⟩
    · exact .inl hf
    · rcases drawText_next ht with hf | ⟨fb, ht, hw⟩
      · exact .inl hf
      · exact .inr ⟨_, ht, fb, rfl, hw⟩
  | drawInt x y fbase size color num =>
    rcases checkCol_next h with hf | ⟨-, ht⟩
    · exact .inl hf
    · rcases State.orFault_next ht with ⟨c, -, ht⟩ | ⟨text, -, ht⟩
      · exact .inl ⟨c, ht⟩
      · rcases drawText_next ht with hf | ⟨fb, ht, hw⟩
        · exact .inl hf
        · exact .inr ⟨_, ht, fb, rfl, hw⟩
  | setCursor x y => cases h; exact .inr ⟨_, rfl, rfl⟩
  | setFontSize size => cases h; exact .inr ⟨_, rfl, rfl⟩
  | setColor color =>
    rcases checkCol_next h with hf | ⟨-, ht⟩
    · exact .inl hf
    · cases ht; exact .inr ⟨_, rfl, rfl⟩
  | printStr text =>
    simp only [exec, execPrintStr] at h
    split_ifs at h
    · rcases drawText_next h with hf | ⟨fb, ht, hw⟩
      · exact .inl hf
      · exact .inr ⟨_, ht, fb, rfl, hw⟩
    · exact .inr (noFont h)
  | printChar c =>
    simp only [exec, execPrintChar] at h
    split_ifs at h
    · rcases State.orFault_next h with ⟨c, -, ht⟩ | ⟨g, -, ht⟩
      · exact .inl ⟨c, ht⟩
      · cases ht; exact .inr ⟨_, rfl, _, rfl, fun hw => (drawGlyph_spec hw _ _ _ _ _).1⟩
    · exact .inr (noFont h)
  | printInt num =>
    simp only [exec, execPrintInt] at h
    split_ifs at h
    · rcases State.orFault_next h with ⟨c, -, ht⟩ | ⟨text, -, ht⟩
      · exact .inl ⟨c, ht⟩
      · rcases drawText_next ht with hf | ⟨fb, ht, hw⟩
        · exact .inl hf
        · exact .inr ⟨_, ht, fb, rfl, hw⟩
    · exact .inr (noFont h)
  | clear =>
    cases h
    exact .inr ⟨_, rfl, _, rfl, fun hw => by rw [Memory.zeroFill_eq hw]; rfl⟩
  | sync =>
    simp only [exec, execSync, pushChunks] at h
    cases h
    refine .inr ⟨_, rfl, ?_⟩
    simp [Effect, State.pushTx, List.append_assoc]
  | begin => cases h; exact .inr ⟨_, rfl, rfl⟩

/-- What no command writes before `PC` is advanced: `PC` itself, the fault registers and the parameters. -/
theorem Effect.frame {i : Instr} {s u : State} (h : Effect i s u) :
    u.pc = s.pc ∧ u.fault = s.fault ∧ u.faultPc = s.faultPc ∧ u.cfg = s.cfg ∧ u.cmd = s.cmd ∧ u.acks = s.acks := by
  cases i with
  | setPixel | drawRect | drawChar | drawStr | drawInt | printStr | printChar | printInt | clear =>
    obtain ⟨fb, rfl, -⟩ := h
    exact ⟨rfl, rfl, rfl, rfl, rfl, rfl⟩
  | getPixel | setCursor | setFontSize | setColor | sync | begin =>
    subst h
    exact ⟨rfl, rfl, rfl, rfl, rfl, rfl⟩

/-- `exec` always answers a next state. -/
theorem exec_total (i : Instr) (s : State) : ∃ t, exec i s = .next t := by
  have checked : ∀ {α : Type} (r : Except FaultCause α) (k : α → Host.Outcome State Fault Refusal),
      (∀ a, ∃ t, k a = .next t) → ∃ t, s.orFault r k = .next t := by
    intro α r k hk
    cases r with
    | error c => exact ⟨_, rfl⟩
    | ok a => exact hk a
  cases i with
  | setPixel x y color => exact checked _ _ fun _ => ⟨_, rfl⟩
  | getPixel x y => exact ⟨_, rfl⟩
  | drawRect x y w h color => exact checked _ _ fun _ => ⟨_, rfl⟩
  | drawChar x y size color glyph => exact checked _ _ fun _ => ⟨_, rfl⟩
  | drawStr x y fbase size color text => exact checked _ _ fun _ => checked _ _ fun _ => ⟨_, rfl⟩
  | drawInt x y fbase size color num =>
    exact checked _ _ fun _ => checked _ _ fun _ => checked _ _ fun _ => ⟨_, rfl⟩
  | setCursor x y => exact ⟨_, rfl⟩
  | setFontSize size => exact ⟨_, rfl⟩
  | setColor color => exact checked _ _ fun _ => ⟨_, rfl⟩
  | printStr text =>
    simp only [exec, execPrintStr]
    split_ifs
    · exact checked _ _ fun _ => ⟨_, rfl⟩
    · exact ⟨_, rfl⟩
  | printChar c =>
    simp only [exec, execPrintChar]
    split_ifs
    · exact checked _ _ fun _ => ⟨_, rfl⟩
    · exact ⟨_, rfl⟩
  | printInt num =>
    simp only [exec, execPrintInt]
    split_ifs
    · exact checked _ _ fun _ => checked _ _ fun _ => ⟨_, rfl⟩
    · exact ⟨_, rfl⟩
  | clear => exact ⟨_, rfl⟩
  | sync => exact ⟨_, rfl⟩
  | begin => exact ⟨_, rfl⟩

/-- The inversion of `step` (R81): the engine was running inside the stream, and it performed the decoded command or
took a fault of the sequencer. -/
theorem step_next {s t : State} (h : step s = .next t) :
    s.fault = 0 ∧ s.pc < s.cmd.length ∧
      ((∃ i rest, decode s.cfg s.fetchBytes = .instr i rest ∧ exec i s = .next t) ∨ ∃ c, t = s.takeFault c) := by
  unfold step fetch at h
  by_cases hf : s.fault = 0
  · by_cases he : s.pc = s.cmd.length
    · rw [if_neg (not_not.mpr hf), if_pos he] at h; cases h
    · by_cases hlt : s.cmd.length < s.pc
      · rw [if_neg (not_not.mpr hf), if_neg he, if_pos hlt] at h; cases h
      · rw [if_neg (not_not.mpr hf), if_neg he, if_neg hlt] at h
        refine ⟨hf, by omega, ?_⟩
        cases hd : decode s.cfg s.fetchBytes with
        | instr i rest => rw [hd] at h; exact .inl ⟨i, rest, rfl, h⟩
        | illegalCommand op => rw [hd] at h; cases h; exact .inr ⟨_, rfl⟩
        | textUnterminated => rw [hd] at h; cases h; exact .inr ⟨_, rfl⟩
        | truncated => rw [hd] at h; cases h
  · rw [if_pos hf] at h; cases h

end Sys2Proof.Machine
end

