-- ==== Sys2Proof/Laws/PerInstr.lean ====
section
/-! SUPPORT. The family `OperandLength`: the operand bytes of a command are one fewer than its length (30_encoding.md
R88: the opcode is the other byte). -/

/-- The command's operand bytes and its opcode make its length. -/
def Sys2Proof.Laws.OperandLength.Statement (i : Sys2Proof.Instr) : Prop := i.operandBytes.length + 1 = i.length

namespace Sys2Proof.Laws.OperandLength

theorem setPixel (x y : Half) (color : Byte) : Statement (.setPixel x y color) := rfl
theorem getPixel (x y : Half) : Statement (.getPixel x y) := rfl
theorem drawRect (x y w h : Half) (color : Byte) : Statement (.drawRect x y w h color) := rfl
theorem drawChar (x y size : Half) (color : Byte) (glyph : Glyph) : Statement (.drawChar x y size color glyph) := rfl

theorem drawStr (x y fbase size : Half) (color : Byte) (text : List Byte) :
    Statement (.drawStr x y fbase size color text) := by
  simp only [Statement, Instr.operandBytes, Instr.length, bytes16, List.length_append, List.length_cons,
    List.length_nil]
  omega

theorem drawInt (x y fbase size : Half) (color : Byte) (num : Word32) :
    Statement (.drawInt x y fbase size color num) := rfl
theorem setCursor (x y : Half) : Statement (.setCursor x y) := rfl
theorem setFontSize (size : Half) : Statement (.setFontSize size) := rfl
theorem setColor (color : Byte) : Statement (.setColor color) := rfl

theorem printStr (text : List Byte) : Statement (.printStr text) := by
  simp only [Statement, Instr.operandBytes, Instr.length, List.length_append, List.length_cons, List.length_nil]
  omega

theorem printChar (c : Byte) : Statement (.printChar c) := rfl
theorem printInt (num : Word32) : Statement (.printInt num) := rfl
theorem clear : Statement .clear := rfl
theorem sync : Statement .sync := rfl
theorem begin : Statement .begin := rfl

end Sys2Proof.Laws.OperandLength
end

