-- ==== Sys2Proof/Tests/Slice0.lean ====
section
/-! SUPPORT. The package's own tests. An expected value is the spec's: a packet of 30_encoding.md R108, a vector of
95_test_vectors.md, or a rule worked by hand; its source stands above the test. -/

namespace Sys2Proof.Tests

open Sys2Proof Sys2Proof.Machine

/-! ### Helpers -/

/-- The test font F1 of 95_test_vectors.md. -/
def fontF1 : List Byte :=
  List.replicate 360 0 ++ [0x00, 0x00, 0x00, 0x00, 0x3C, 0x00, 0x00, 0x00] ++ List.replicate 16 0 ++
  [0x00, 0x1C, 0x22, 0x22, 0x22, 0x22, 0x1C, 0x00] ++ [0x00, 0x08, 0x18, 0x08, 0x08, 0x08, 0x1C, 0x00] ++
  [0x00, 0x1C, 0x22, 0x02, 0x0C, 0x10, 0x3E, 0x00] ++ List.replicate 112 0 ++
  [0x00, 0x1C, 0x22, 0x22, 0x3E, 0x22, 0x22, 0x00] ++ [0x00, 0x3C, 0x22, 0x3C, 0x22, 0x22, 0x3C, 0x00] ++
  List.replicate 1512 0

/-- The conventions of 95_test_vectors.md: the defaults of R7 and the font F1. -/
def cfgF1 : Config := { Config.default with font := fontF1 }

/-- Short texts and a font of 16 bytes: two entries. -/
def cfgSmall : Config := { Config.default with font := List.replicate 16 0, textMax := 3 }

/-- The reset state with a command stream. -/
def start (cmd : List Byte) : State := State.resetOf cfgF1 cmd [true]

/-- The glyph T1 of 95_test_vectors.md. -/
def glyphT1 : Glyph := ⟨0xFF, 0x30, 0x48, 0x84, 0xFC, 0x84, 0x84, 0x03⟩

/-- One field of the next state. -/
def after {α : Type} (o : Host.Outcome State Fault Refusal) (f : State → α) : Option α :=
  match o with
  | .next t => some (f t)
  | .fault _ => none
  | .refused _ => none

/-- The fault of a step that does not exist. -/
def stop (o : Host.Outcome State Fault Refusal) : Option Fault :=
  match o with
  | .next _ => none
  | .fault f => some f
  | .refused _ => none

/-! ### WellFormed: an ill-formed term for each check -/

theorem test_text_too_long : textWellFormed 3 [0x41, 0x41, 0x41, 0x41] = false := by decide
theorem test_text_of_text_max : textWellFormed 3 [0x41, 0x41, 0x41] = true := by decide
theorem test_text_with_a_zero : textWellFormed 3 [0x41, 0x00] = false := by decide
theorem test_drawstr_ill_formed : (Instr.drawStr 0 0 0 1 0 [0x41, 0x00]).wellFormed 255 = false := by decide
theorem test_printstr_ill_formed : (Instr.printStr [0x41, 0x41, 0x41, 0x41]).wellFormed 3 = false := by decide
theorem test_profile_missing : Instr.sync.admitted { Config.default with sync := false } = false := by decide
theorem test_config_ill_formed : ({ Config.default with intBufCap := 1 } : Config).wellFormed = false := by decide
theorem test_config_well_formed : ({ Config.default with intBufCap := 2 } : Config).wellFormed = true := by decide
theorem test_stream_too_long : streamWellFormed (List.replicate (2 ^ 32) 0) = false := by
  rw [streamWellFormed, List.length_replicate]; decide
theorem test_stream_longest : streamWellFormed (List.replicate (2 ^ 32 - 1) 0) = true := by
  rw [streamWellFormed, List.length_replicate]; decide

/-! ### Decoding: the packets of R108, and `decodeTableWord` -/

/-- R108, R95. -/
theorem test_decode_setpixel : decode cfgF1 [0x10, 0x05, 0x00, 0x09, 0x00, 0x00] = .instr (.setPixel 5 9 0) [] := by
  decide
/-- R108, R94. -/
theorem test_decode_getpixel : decode cfgF1 [0x11, 0x05, 0x00, 0x09, 0x00] = .instr (.getPixel 5 9) [] := by decide
/-- R108, R96. -/
theorem test_decode_drawrect : decode cfgF1 [0x20, 0x7E, 0x00, 0x06, 0x00, 0x04, 0x00, 0x04, 0x00, 0x00] =
    .instr (.drawRect 126 6 4 4 0) [] := by decide
/-- R108, R97. -/
theorem test_decode_drawchar : decode cfgF1
    [0x30, 0x00, 0x00, 0x00, 0x00, 0x01, 0x00, 0x00, 0xFF, 0x30, 0x48, 0x84, 0xFC, 0x84, 0x84, 0x03] =
    .instr (.drawChar 0 0 1 0 glyphT1) [] := by decide
/-- R108, R98; the bytes after the terminator are left. -/
theorem test_decode_drawstr : decode cfgF1
    [0x40, 0x0A, 0x00, 0x08, 0x00, 0x00, 0x00, 0x02, 0x00, 0x00, 0x41, 0x42, 0x00, 0x50] =
    .instr (.drawStr 10 8 0 2 0 [0x41, 0x42]) [0x50] := by decide
/-- R108, R99. -/
theorem test_decode_drawint : decode cfgF1
    [0x41, 0x04, 0x00, 0x10, 0x00, 0x00, 0x00, 0x01, 0x00, 0x00, 0xF4, 0xFF, 0xFF, 0xFF] =
    .instr (.drawInt 4 16 0 1 0 (BitVec.ofInt 32 (-12))) [] := by decide
/-- R108, R94. -/
theorem test_decode_setcursor : decode cfgF1 [0x42, 0x04, 0x00, 0x10, 0x00] = .instr (.setCursor 4 16) [] := by decide
/-- R108, R92. -/
theorem test_decode_setfontsize : decode cfgF1 [0x43, 0x01, 0x00] = .instr (.setFontSize 1) [] := by decide
/-- R108, R90. -/
theorem test_decode_setcolor : decode cfgF1 [0x44, 0x00] = .instr (.setColor 0) [] := by decide
/-- R108, R100. -/
theorem test_decode_printstr : decode cfgF1 [0x45, 0x41, 0x42, 0x00] = .instr (.printStr [0x41, 0x42]) [] := by decide
/-- R108, R91. -/
theorem test_decode_printchar : decode cfgF1 [0x46, 0x41] = .instr (.printChar 0x41) [] := by decide
/-- R108, R93. -/
theorem test_decode_printint : decode cfgF1 [0x47, 0xF4, 0xFF, 0xFF, 0xFF] =
    .instr (.printInt (BitVec.ofInt 32 (-12))) [] := by decide
/-- R108, R89. -/
theorem test_decode_zero_operand : decode cfgF1 [0x50] = .instr .clear [] ∧ decode cfgF1 [0x51] = .instr .sync [] ∧
    decode cfgF1 [0x52] = .instr .begin [] := by decide
/-- V28, V31: packets whose operands differ (R96, R97). -/
theorem test_decode_operands_differ :
    decode cfgF1 [0x20, 0x0B, 0x00, 0x06, 0x00, 0x03, 0x00, 0x04, 0x00, 0x02] = .instr (.drawRect 11 6 3 4 2) [] ∧
    decode cfgF1 [0x30, 0x03, 0x00, 0x05, 0x00, 0x02, 0x00, 0x00, 0xFF, 0x30, 0x48, 0x84, 0xFC, 0x84, 0x84, 0x03] =
      .instr (.drawChar 3 5 2 0 glyphT1) [] := by decide
/-- R84: `C8 00` is 200, `FE FF` is −2. -/
theorem test_little_endian : (le16 0xC8 0x00).toInt = 200 ∧ (le16 0xFE 0xFF).toInt = -2 ∧
    le16 0xF0 0x05 = 1520 := by decide
/-- R104: the opcode is checked alone. -/
theorem test_decode_unassigned : decode cfgF1 [0x12] = .illegalCommand 0x12 := by decide
/-- The table's word of `SETPIXEL`, six bytes, bit 0 the lowest of the opcode. -/
theorem test_table_word_setpixel : decodeTableWord 48 0x030900050010 = some (.setPixel 0x0500 0x0900 0x03) := by decide
/-- The table's word of `PRINTSTR`, the opcode alone: an empty text. -/
theorem test_table_word_printstr : decodeTableWord 8 0x45 = some (.printStr []) := by decide
/-- The encoder gives the packet of R108. -/
theorem test_encode_drawint : encode (.drawInt 4 16 0 1 0 (BitVec.ofInt 32 (-12))) =
    [0x41, 0x04, 0x00, 0x10, 0x00, 0x00, 0x00, 0x01, 0x00, 0x00, 0xF4, 0xFF, 0xFF, 0xFF] := by decide

/-! ### Steps -/

/-- V11. -/
theorem test_setpixel : after (step (start [0x10, 0x05, 0x00, 0x09, 0x00, 0x00])) (fun t => (t.fb, t.pc)) =
    some ([(133, 0x02)], 6) := by decide
/-- V12f: `CLEAR` on A7. -/
theorem test_setpixel_clear : after (exec (.setPixel 5 9 1) { start [] with fb := [(133, 0xA7)] }) (·.fb) =
    some [(133, 0xA5)] := by decide
/-- V14, V13d: the last pixel reads set, a negative coordinate reads unset. -/
theorem test_getpixel : after (exec (.getPixel 127 63) { start [] with fb := [(1023, 0x80)] }) (·.rsp) = some [1] ∧
    after (exec (.getPixel 0xFFFF 0xFFFF) { start [] with fb := [(1023, 0x80)] }) (·.rsp) = some [0] := by decide
/-- V20. -/
theorem test_drawrect : after (exec (.drawRect 126 6 4 4 0) (start [])) (·.fb) =
    some [(126, 0xC0), (127, 0xC0), (254, 0x03), (255, 0x03)] := by decide
/-- V24d: the corner off the panel is clipped. -/
theorem test_drawrect_clipped : after (exec (.drawRect 0xFFFE 0xFFFE 4 4 0) (start [])) (·.fb) =
    some [(0, 0x03), (1, 0x03)] := by decide
/-- V30. -/
theorem test_drawchar : after (exec (.drawChar 0 0 1 0 glyphT1) (start [])) (·.fb) =
    some [(0, 0x09), (1, 0x09), (2, 0x0A), (3, 0x3C), (4, 0x40), (5, 0x40)] := by decide
/-- V32b: `INVERT` toggles the whole box, here at size 2. -/
theorem test_drawchar_invert : after (exec (.drawChar 0 0 2 2 glyphT1) (start [])) (fun t =>
    [Memory.read t.fb 0, Memory.read t.fb 11, Memory.read t.fb 12, Memory.read t.fb 139]) =
    some [0xFF, 0xFF, 0x00, 0x3F] := by decide
/-- V40. -/
theorem test_drawstr : after (exec (.drawStr 0 0 0 1 0 [0x41, 0x42]) (start [])) (·.fb) =
    some [(0, 0x3E), (1, 0x09), (2, 0x09), (3, 0x09), (4, 0x3E), (6, 0x3F), (7, 0x25), (8, 0x25), (9, 0x25),
      (10, 0x1A)] := by decide +kernel
/-- V65a: a glyph outside the font. -/
theorem test_drawstr_font_bounds : after (exec (.drawStr 0 0 1528 1 0 [0x41]) (start [])) (fun t =>
    (t.fb, t.fault, t.pc)) = some ([], 5, 0) := by decide +kernel
/-- V44. -/
theorem test_drawint : after (exec (.drawInt 4 16 0 1 0 (BitVec.ofInt 32 (-12))) (start [])) (·.fb) =
    some [(260, 0x08), (261, 0x08), (262, 0x08), (263, 0x08), (267, 0x22), (268, 0x3F), (269, 0x20), (272, 0x22),
      (273, 0x31), (274, 0x29), (275, 0x29), (276, 0x26)] := by decide +kernel
/-- V66d: a number too long, before the font is looked at. -/
theorem test_drawint_overflow : after (exec (.drawInt 0 0 2047 1 0 (BitVec.ofInt 32 (-2000000000))) (start []))
    (·.fault) = some 4 := by decide
/-- V49e: values off the panel are stored. -/
theorem test_setcursor : after (step (start [0x42, 0xFB, 0xFF, 0x2C, 0x01])) (fun t => (t.curX.toInt, t.curY.toInt)) =
    some (-5, 300) := by decide
/-- V49e. -/
theorem test_setfontsize : after (step (start [0x43, 0xFE, 0xFF])) (·.fontSize.toInt) = some (-2) := by decide
/-- V49e, V62c. -/
theorem test_setcolor : after (step (start [0x44, 0x03])) (·.color) = some 3 ∧
    after (step (start [0x44, 0x80])) (fun t => (t.color, t.fault)) = some (0, 3) := by decide
/-- V49a: the text at the cursor, the cursor where it was. -/
theorem test_printstr : after (exec (.printStr [0x41]) { start [] with curX := 6, fontSize := 1 }) (fun t =>
    (t.fb, t.curX)) = some ([(6, 0x3E), (7, 0x09), (8, 0x09), (9, 0x09), (10, 0x3E)], 6) := by decide +kernel
/-- V49b. -/
theorem test_printchar : after (exec (.printChar 0x41) { start [] with fontSize := 1 }) (·.fb) =
    some [(0, 0x3E), (1, 0x09), (2, 0x09), (3, 0x09), (4, 0x3E)] := by decide +kernel
/-- V48. -/
theorem test_printint : after (exec (.printInt (BitVec.ofInt 32 (-12)))
    { start [] with curX := 4, curY := 16, fontSize := 1 }) (fun t => Memory.read t.fb 273) = some 0x31 := by
  decide +kernel
/-- V66c: no font, no fault. -/
theorem test_printint_without_font : after (exec (.printInt (BitVec.ofInt 32 (-2000000000)))
    (State.resetOf { cfgF1 with fontPresent := false } [] [])) (fun t => (t.fb, t.fault, t.pc)) = some ([], 0, 5) := by
  decide
/-- R200. -/
theorem test_clear : after (exec .clear { start [] with fb := [(0, 0xFF), (1023, 0x80)] }) (·.fb) = some [] := by
  decide +kernel
/-- V52: byte 133 is the sixth data byte of chunk 8; 65 transactions. -/
theorem test_sync : after (exec .sync { start [] with fb := [(133, 0x02)] }) (fun t =>
    (t.tx.length, t.tx[8]?, t.tx[64]?)) =
    some (65, some ⟨0x3C, [0x40, 0, 0, 0, 0, 0, 0x02, 0, 0, 0, 0, 0, 0, 0, 0, 0, 0]⟩, some ⟨0x3C, [0x80, 0xA4]⟩) := by
  decide
/-- V53. -/
theorem test_begin : after (exec .begin (start [])) (fun t => (t.tx.length, t.rsp)) = some (1, [1]) := by decide
/-- V54: a transport that does not acknowledge. -/
theorem test_begin_not_acknowledged : after (exec .begin { start [] with acks := [false] }) (·.rsp) = some [0] := by
  decide

/-! ### The sequencer -/

/-- V60c: the second command faults at its own offset. -/
theorem test_illegal_command : after (step { start [0x10, 0x01, 0x00, 0x01, 0x00, 0x00, 0x12, 0x00] with pc := 6 })
    (fun t => (t.fault, t.faultPc, t.pc)) = some (1, 6, 6) := by decide
/-- V63b, V63c: four characters where three are the limit, the second without a font. -/
theorem test_text_unterminated :
    after (step (State.resetOf cfgSmall [0x40, 0, 0, 0, 0, 0, 0, 1, 0, 0, 0x41, 0x41, 0x41, 0x41, 0] [])) (·.fault) =
      some 2 ∧
    after (step (State.resetOf { cfgSmall with fontPresent := false } [0x45, 0x41, 0x41, 0x41, 0x41, 0] []))
      (·.fault) = some 2 := by decide
/-- V67a, V67d: truncated commands. -/
theorem test_stuck : stop (step (start [0x10, 0x05, 0x00])) = some .stuck ∧
    stop (step (start [0x40, 0x00, 0x00])) = some .stuck := by decide
/-- R81: `State.reset` has no command; a table word placed by `withFetchWord` is what the next step runs. -/
theorem test_reset_finished : stop (step State.reset) = some .finished := by decide
theorem test_with_fetch_word : after (step (State.reset.withFetchWord 48 0x000009000510)) (fun t => (t.fb, t.pc)) =
    some ([(133, 0x02)], 6) := by decide +kernel

/-! ### Witnesses: states and operands that meet the hypotheses of the statements, at the edges of their ranges -/

/-- A canonical framebuffer with the first and the last byte listed, the font F1, one command to run. -/
def s0 : State := { start [0x50] with fb := [(0, 0x01), (1023, 0x80)] }

/-- The same with a font of two entries. -/
def s1 : State := { s0 with cfg := cfgSmall }

theorem s0_inv : s0.Inv :=
  ⟨by decide, by decide, by decide, by decide, rfl, by decide, by intro t h; cases h⟩

theorem witness_InvariantAtReset : streamWellFormed (List.replicate (2 ^ 32 - 1) 0x50) = true := by
  rw [streamWellFormed, List.length_replicate]; decide

theorem witness_DecodeOfEncodeIsTheCommand :
    (Instr.drawStr 0 0 0 1 0 [0x41, 0xFF, 0x01]).admitted cfgSmall = true ∧
    (Instr.setPixel 0xFFFF 0x8000 0xFF).admitted { cfgF1 with layout := false, sync := false } = true := by decide

theorem witness_DecodedBytesAreThePacket :
    decode cfgF1 [0x45, 0x41, 0x00, 0x50] = .instr (.printStr [0x41]) [0x50] := by decide

theorem witness_StepRunsTheDecodedCommand :
    (start [0x50, 0x44, 0x03]).fault = 0 ∧ (Instr.setColor 3).admitted cfgF1 = true ∧
    { start [0x50, 0x44, 0x03] with pc := 1 }.cmd.drop 1 = encode (.setColor 3) ++ [] := by decide

/-- The ends of the ranges of R104, and an opcode of each absent profile; the assigned opcodes beside them fall under no
clause. -/
theorem witness_UnassignedOpcodeRaisesIllegalCommand :
    (start [0x0F, 0x10]).fault = 0 ∧ (start [0x0F, 0x10]).cmd.drop 0 = 0x0F :: [0x10] ∧
    (∀ b ∈ ([0x00, 0x0F, 0x12, 0x1F, 0x21, 0x2F, 0x31, 0x3F, 0x48, 0x4F, 0x53, 0xFF] : List Byte), opOfByte b = none) ∧
    (∀ b ∈ ([0x40, 0x47] : List Byte), (opOfByte b).map Op.profile = some .layout) ∧
    (∀ b ∈ ([0x51, 0x52] : List Byte), (opOfByte b).map Op.profile = some .sync) ∧
    (∀ b ∈ ([0x10, 0x11, 0x20, 0x30, 0x50] : List Byte), (opOfByte b).map Op.profile = some .core) := by decide

theorem witness_UnterminatedTextRaisesTextUnterminated :
    ([0x41, 0xFF, 0x01, 0x41] : List Byte).length = cfgSmall.textMax + 1 ∧ cfgSmall.layout = true ∧
    (∀ b ∈ ([0x41, 0xFF, 0x01, 0x41] : List Byte), b ≠ 0) ∧
    (State.resetOf cfgSmall [0x45, 0x41, 0xFF, 0x01, 0x41] []).cmd.drop 0 = 0x45 :: ([0x41, 0xFF, 0x01, 0x41] ++ []) ∧
    (State.resetOf cfgSmall [0x40, 0, 0, 0, 0, 0, 0, 0, 0, 7, 0x41, 0xFF, 0x01, 0x41, 0] []).cmd.drop 0 =
      0x40 :: ([0, 0, 0, 0, 0, 0, 0, 0, 7] ++ [0x41, 0xFF, 0x01, 0x41] ++ [0]) := by decide

/-- A text cut off before its terminator is stuck; with the terminator it is a command. -/
theorem witness_StuckExactlyOnATruncatedCommand : step (start [0x45, 0x41]) = .fault .stuck ∧
    (Instr.printStr [0x41]).admitted cfgF1 = true ∧ [0x45, 0x41] ++ [0x00] = encode (.printStr [0x41]) := by
  refine ⟨rfl, by decide, by decide⟩

theorem witness_HaltedAndFinishedHaveNoStep : { s0 with fault := 1 }.halted ∧ (start []).final :=
  ⟨by simp [State.halted], rfl, rfl⟩

theorem witness_EveryStateStepsOrIsHaltedFinishedOrStuck : s0.Inv := s0_inv

theorem witness_CompletedStepAdvancesByTheCommand : ∃ t, step s0 = .next t ∧ t.fault = 0 := ⟨_, rfl, rfl⟩

theorem witness_FaultsArePreciseAndHalt : ∃ t, step (start [0x44, 0x04]) = .next t ∧ t.fault ≠ 0 :=
  ⟨_, rfl, by decide⟩

theorem witness_StepKeepsInvariant : s0.Inv ∧ ∃ t, step s0 = .next t := ⟨s0_inv, _, rfl⟩

theorem witness_RunsKeepTheInvariantAndHaltForGood : (∃ t, Reaches s0 t ∧ t.pc = 1) ∧
    { s0 with fault := 1 }.halted ∧ Reaches { s0 with fault := 1 } { s0 with fault := 1 } :=
  ⟨⟨_, .after (.here s0) rfl, rfl⟩, by simp [State.halted], .here _⟩

theorem witness_StepNeverWritesItsParameters : ∃ t, step s0 = .next t := ⟨_, rfl⟩

theorem witness_OutputLogsOnlyGrow : ∃ t, step (start [0x52]) = .next t ∧ t.rsp.length = 1 ∧ t.tx.length = 1 :=
  ⟨_, rfl, rfl, rfl⟩

theorem witness_OnlyGetpixelAndBeginRespond : ∃ t, exec (.getPixel 0 0) s0 = .next t ∧ t.rsp = [1] := ⟨_, rfl, by decide⟩

theorem witness_CursorWrittenOnlyBySetters : ∃ t, exec (.setCursor 1 2) s0 = .next t ∧ t.curX = 1 := ⟨_, rfl, rfl⟩

theorem witness_DirectDrawingIsIndependentOfCursor :
    (∃ t, exec (.setPixel 5 9 0) s0 = .next t) ∧ (∃ t, exec (.drawRect 0 0 4 4 2) s0 = .next t) ∧
    (∃ t, exec (.drawChar 0 0 1 0 glyphT1) s0 = .next t) ∧ (∃ t, exec (.drawStr 0 0 0 1 0 [0x41]) s0 = .next t) ∧
    ∃ t, exec (.drawInt 0 0 0 1 0 7) s0 = .next t :=
  ⟨exec_total _ _, exec_total _ _, exec_total _ _, exec_total _ _, exec_total _ _⟩

theorem witness_TranslatorIsABijection : byteIndex 0 0 = 0 ∧ pagePosition 0 = 0 ∧ byteIndex 127 63 = 1023 ∧
    pagePosition 63 = 7 ∧ inRange 127 63 = true ∧ inRange 128 63 = false ∧ inRange 127 64 = false ∧
    inRange (-1) 0 = false := by decide

theorem witness_PixelWriteReadLaws : Memory.wf s0.fb = true ∧ inRange 127 63 = true ∧ inRange 128 0 = false ∧
    inRange 0 64 = false ∧ inRange 0 (-1) = false := by decide

theorem witness_SetPixelChangesOnePixel : Memory.wf s0.fb = true ∧ (0 : Byte).toNat ≤ 3 ∧
    ¬ (inRange (5 : Half).toInt (9 : Half).toInt = true ∧ 132 = byteIndex (5 : Half).toInt (9 : Half).toInt) := by decide

theorem witness_DrawRectPaintsTheRectangle : Memory.wf s0.fb = true ∧ (2 : Byte).toNat ≤ 3 ∧
    ((0 : Half).toInt ≤ 0 ∨ (4 : Half).toInt ≤ 0) := by decide

theorem witness_DrawRectIsTheLoopOfWritePixel : Memory.wf s0.fb = true ∧ (1 : Byte).toNat ≤ 3 := by decide

/-- V36d's glyph: cells (1, 2) and (7, 7) are set, (1, 7) and (7, 2) are not. -/
theorem witness_DrawCharPaintsTheGlyph :
    Memory.wf s0.fb = true ∧ (0 : Byte).toNat ≤ 3 ∧ (0xFFFF : Half).toInt ≤ 0 ∧
    glyphBit ⟨0x00, 0x20, 0x00, 0x00, 0x00, 0x00, 0x00, 0x01⟩ 1 2 = true ∧
    glyphBit ⟨0x00, 0x20, 0x00, 0x00, 0x00, 0x00, 0x00, 0x01⟩ 7 7 = true ∧
    glyphBit ⟨0x00, 0x20, 0x00, 0x00, 0x00, 0x00, 0x00, 0x01⟩ 1 7 = false ∧
    glyphBit ⟨0x00, 0x20, 0x00, 0x00, 0x00, 0x00, 0x00, 0x01⟩ 7 2 = false := by decide

theorem witness_GlyphPaddingHasNoEffect : ∀ i : Fin 8, 1 ≤ i.val →
    (glyphRow glyphT1 i).extractLsb' 0 6 =
      (glyphRow { glyphT1 with g0 := 0x00, g1 := 0xF0, g7 := 0xC3 } i).extractLsb' 0 6 := by decide

theorem witness_InvertGlyphTogglesTheWholeBox : Memory.wf s0.fb = true ∧ 1 ≤ (1 : Half).toInt ∧
    1 ≤ (0x7FFF : Half).toInt := by decide

theorem witness_DrawingTwiceRestoresOrRepeats : Memory.wf s0.fb = true ∧ (2 : Byte).toNat ≤ 3 ∧
    (∃ t u, exec (.setPixel 5 9 2) s0 = .next t ∧ exec (.setPixel 5 9 2) t = .next u) ∧
    (∃ t u, exec (.drawRect 0 0 4 4 3) s0 = .next t ∧ exec (.drawRect 0 0 4 4 3) t = .next u) ∧
    ∃ t u, exec (.drawChar 0 0 1 0 glyphT1) s0 = .next t ∧ exec (.drawChar 0 0 1 0 glyphT1) t = .next u :=
  ⟨by decide, by decide, ⟨_, _, rfl, rfl⟩, ⟨_, _, rfl, rfl⟩, ⟨_, _, rfl, rfl⟩⟩

theorem witness_IgnoreNeverMutates : (∃ t, exec (.drawRect 0 0 4 4 3) s0 = .next t) ∧
    { s0 with color := 3 }.color = 3 ∧ ∃ t, exec (.printStr [0x41]) { s0 with color := 3 } = .next t :=
  ⟨exec_total _ _, rfl, exec_total _ _⟩

/-- The last entry of a font of 16 bytes ends at its last byte; one byte further it does not. -/
theorem witness_FetchGlyphReadsEightFontBytes : 0 + 8 * (1 : Byte).toNat + 7 < cfgSmall.fontBytes ∧
    cfgSmall.fontBytes ≤ 1 + 8 * (1 : Byte).toNat + 7 := by decide

theorem witness_DrawStrPaintsTheText : Memory.wf s1.fb = true ∧ (3 : Byte).toNat ≤ 3 ∧
    ∀ c ∈ ([0x01, 0x00] : List Byte), (0 : Half).toNat + 8 * c.toNat + 7 < s1.cfg.fontBytes := by decide

/-- The longest number that fits, and a font that holds the digits. -/
theorem witness_DrawIntPaintsTheDecimalText : Memory.wf s0.fb = true ∧ (0 : Byte).toNat ≤ 3 ∧
    (decimal (BitVec.ofInt 32 (-999999999)).toInt).length + 1 ≤ s0.cfg.intBufCap ∧
    ∀ c ∈ decimal (BitVec.ofInt 32 (-999999999)).toInt, (1584 : Half).toNat + 8 * c.toNat + 7 < s0.cfg.fontBytes := by
  decide +kernel

theorem witness_DecimalTextIsCanonical : (0 : Int) < 1 ∧ decimal 1 = [0x31] ∧
    decimal (-10) = [0x2D, 0x31, 0x30] := by decide

theorem witness_FormatterCapacityRange : cfgF1.intBufCap = 11 ∧ 12 ≤ { cfgF1 with intBufCap := 12 }.intBufCap ∧
    (BitVec.ofInt 32 (-1000000000)).toInt ≤ -1000000000 ∧ ¬ (BitVec.ofInt 32 (-999999999)).toInt ≤ -1000000000 := by
  decide

theorem witness_SetColorWritesTheCode : (3 : Byte).toNat ≤ 3 ∧ ¬ (4 : Byte).toNat ≤ 3 := by decide

theorem witness_PrintStrPaintsAtTheCursor : Memory.wf s1.fb = true ∧ s1.cfg.fontPresent = true ∧
    ∀ c ∈ ([0x01] : List Byte), s1.cfg.fontBase.toNat + 8 * c.toNat + 7 < s1.cfg.fontBytes := by decide

theorem witness_PrintCharPaintsAtTheCursor : Memory.wf s1.fb = true ∧ s1.cfg.fontPresent = true ∧
    s1.cfg.fontBase.toNat + 8 * (1 : Byte).toNat + 7 < s1.cfg.fontBytes := by decide

theorem witness_PrintIntPaintsAtTheCursor : Memory.wf s0.fb = true ∧ s0.cfg.fontPresent = true ∧
    (decimal (BitVec.ofInt 32 2147483647).toInt).length + 1 ≤ s0.cfg.intBufCap ∧
    ∀ c ∈ decimal (BitVec.ofInt 32 2147483647).toInt, s0.cfg.fontBase.toNat + 8 * c.toNat + 7 < s0.cfg.fontBytes := by
  decide +kernel

theorem witness_PrintWithoutFontDoesNothing :
    { s0 with cfg := { cfgF1 with fontPresent := false } }.cfg.fontPresent = false := by decide

theorem witness_PrintRoutesToTheDirectCommands : s0.cfg.fontPresent = true ∧
    (∃ t, exec (.drawStr s0.curX s0.curY s0.cfg.fontBase s0.fontSize (s0.color.setWidth 8) [0x41]) s0 = .next t) ∧
    (∃ t, exec (.drawInt s0.curX s0.curY s0.cfg.fontBase s0.fontSize (s0.color.setWidth 8) 7) s0 = .next t) ∧
    ∃ g t, fetchGlyph s0.cfg s0.cfg.fontBase.toNat 0xFF = .ok g ∧
      exec (.drawChar s0.curX s0.curY s0.fontSize (s0.color.setWidth 8) g) s0 = .next t := by
  obtain ⟨t, ht⟩ := exec_total
    (.drawChar s0.curX s0.curY s0.fontSize (s0.color.setWidth 8) (glyphAt s0.cfg s0.cfg.fontBase.toNat 0xFF)) s0
  exact ⟨rfl, exec_total _ _, exec_total _ _, _, t, fetchGlyph_ok (by decide +kernel), ht⟩

theorem witness_ReservedColorBitsRaiseIllegalOperand : 3 < (4 : Byte).toNat ∧ 3 < (0xFF : Byte).toNat := by decide

theorem witness_LongNumberRaisesFormatOverflow : s0.cfg.fontPresent = true ∧ (0 : Byte).toNat ≤ 3 ∧
    s0.cfg.intBufCap < (decimal (BitVec.ofInt 32 (-1000000000)).toInt).length + 1 := by decide +kernel

theorem witness_GlyphOutsideFontRaisesFontBounds : s1.cfg.fontPresent = true ∧ s1.cfg.fontBase = 0 ∧
    s1.cfg.fontBytes ≤ (0 : Half).toNat + 8 * (0x30 : Byte).toNat + 7 ∧ (0x30 : Byte) ∈ ([0x00, 0x30] : List Byte) ∧
    (0x30 : Byte) ∈ decimal (0 : Word32).toInt ∧ (decimal (0 : Word32).toInt).length + 1 ≤ s1.cfg.intBufCap := by decide

theorem witness_ClearZeroesTheFramebuffer : Memory.wf s0.fb = true ∧ s0.fb ≠ [] := by decide

theorem witness_SyncSendsTheWholeFrame : Memory.wf s0.fb = true := by decide

theorem witness_BeginSendsTheBringUp : s0.acks[s0.tx.length]? = some true := by decide

end Sys2Proof.Tests
end

section
/-! SUPPORT. Proofs of the statements about the state (10_state.md): reset, the parameters no step writes, the
append-only logs, and who writes and who reads the cursor and style registers. -/

namespace Sys2Proof.Machine

/-! ### Reset -/

/-- The state after reset meets the invariant, whatever the configuration and the answers of the transport. -/
theorem State.resetOf_inv (cfg : Config) {cmd : List Byte} (acks : List Bool) (h : streamWellFormed cmd = true) :
    (State.resetOf cfg cmd acks).Inv where
  fb_wf := Memory.wf_nil
  stream := h
  pc_le := Nat.zero_le _
  fault_code := Nat.zero_le _
  fault_pc := rfl
  rsp_bit := by simp
  tx_carried := by simp

/-- Settles O1: field by field, and an empty memory reads as zero. -/
theorem resetStateIsAsTabulated : Obligations.ResetStateIsAsTabulated := by
  intro cfg cmd acks
  simp

/-- Settles O3: `State.reset` is the reset state of the default configuration with the empty stream. -/
theorem invariantAtReset : Obligations.InvariantAtReset :=
  ⟨fun cfg _ acks h => State.resetOf_inv cfg acks h, State.resetOf_inv Config.default [] rfl⟩

/-! ### What a step writes -/

/-- A step took a fault, or a command completed with its effect and advanced `PC`. -/
theorem step_effect {s t : State} (h : step s = .next t) :
    (∃ c, t = s.takeFault c) ∨ ∃ i u, t = u.advance i.length ∧ Effect i s u := by
  obtain ⟨-, -, ⟨i, -, -, hexec⟩ | hfault⟩ := step_next h
  · exact (exec_next hexec).imp_right fun hdone => ⟨i, hdone⟩
  · exact .inl hfault

/-- Settles O18: a fault writes only the fault registers, and no effect writes a parameter. -/
theorem stepNeverWritesItsParameters : Obligations.StepNeverWritesItsParameters := by
  intro s t h
  obtain ⟨c, rfl⟩ | ⟨i, u, rfl, heff⟩ := step_effect h
  · exact ⟨rfl, rfl, rfl⟩
  · obtain ⟨-, -, -, hcfg, hcmd, hacks⟩ := heff.frame
    exact ⟨hcfg, hcmd, hacks⟩

/-! ### The output logs -/

@[simp] theorem trailingPayload_length : trailingPayload.length = 2 := rfl

/-- What an effect appends to the logs: at most one response byte, and transactions the transport can carry, their
payloads 17 bytes for a chunk of `SYNC`, 2 for its trailing command, 32 for `BEGIN`. -/
theorem Effect.appends {i : Instr} {s u : State} (h : Effect i s u) :
    (∃ bs, u.rsp = s.rsp ++ bs ∧ bs.length ≤ 1) ∧
      ∃ ts, u.tx = s.tx ++ ts ∧ ∀ t ∈ ts, Transaction.carried s.cfg t := by
  have noRsp : ∃ bs, s.rsp = s.rsp ++ bs ∧ bs.length ≤ 1 := ⟨[], by simp⟩
  have noTx : ∃ ts, s.tx = s.tx ++ ts ∧ ∀ t ∈ ts, Transaction.carried s.cfg t := ⟨[], by simp⟩
  cases i with
  | setPixel | drawRect | drawChar | drawStr | drawInt | printStr | printChar | printInt | clear =>
    obtain ⟨fb, rfl, -⟩ := h
    exact ⟨noRsp, noTx⟩
  | setCursor | setFontSize | setColor =>
    subst h
    exact ⟨noRsp, noTx⟩
  | getPixel =>
    subst h
    exact ⟨⟨_, rfl, Nat.le_refl 1⟩, noTx⟩
  | sync =>
    subst h
    refine ⟨noRsp, _, rfl, fun t ht => ?_⟩
    obtain hchunk | htrailing := List.mem_append.mp ht
    · obtain ⟨c, -, rfl⟩ := List.mem_map.mp hchunk
      exact ⟨rfl, by simp, by simp [TRANSPORT_MAX]⟩
    · obtain rfl := List.mem_singleton.mp htrailing
      exact ⟨rfl, by simp, by simp [TRANSPORT_MAX]⟩
  | begin =>
    subst h
    refine ⟨⟨_, rfl, Nat.le_refl 1⟩, _, rfl, fun t ht => ?_⟩
    obtain rfl := List.mem_singleton.mp ht
    exact ⟨rfl, by simp, by simp [TRANSPORT_MAX]⟩

/-- Settles O19: a fault appends nothing, and an effect appends what `Effect.appends` says. -/
theorem outputLogsOnlyGrow : Obligations.OutputLogsOnlyGrow := by
  intro s t h
  obtain ⟨c, rfl⟩ | ⟨i, u, rfl, heff⟩ := step_effect h
  · exact ⟨⟨[], by simp⟩, [], by simp⟩
  · exact heff.appends

/-! ### The cursor and style registers -/

/-- An effect writes a cursor or style register only if its command is the setter of that register. -/
theorem Effect.style_frame {i : Instr} {s u : State} (h : Effect i s u) :
    ((∀ x y, i ≠ .setCursor x y) → u.curX = s.curX ∧ u.curY = s.curY) ∧
      ((∀ n, i ≠ .setFontSize n) → u.fontSize = s.fontSize) ∧ ((∀ c, i ≠ .setColor c) → u.color = s.color) := by
  cases i with
  | setPixel | drawRect | drawChar | drawStr | drawInt | printStr | printChar | printInt | clear =>
    obtain ⟨fb, rfl, -⟩ := h
    exact ⟨fun _ => ⟨rfl, rfl⟩, fun _ => rfl, fun _ => rfl⟩
  | getPixel | sync | begin =>
    subst h
    exact ⟨fun _ => ⟨rfl, rfl⟩, fun _ => rfl, fun _ => rfl⟩
  | setCursor x y =>
    subst h
    exact ⟨fun hne => absurd rfl (hne x y), fun _ => rfl, fun _ => rfl⟩
  | setFontSize size =>
    subst h
    exact ⟨fun _ => ⟨rfl, rfl⟩, fun hne => absurd rfl (hne size), fun _ => rfl⟩
  | setColor color =>
    subst h
    exact ⟨fun _ => ⟨rfl, rfl⟩, fun _ => rfl, fun hne => absurd rfl (hne color)⟩

/-- Settles O21: a fault writes no cursor or style register, and an effect only those of its own setter. -/
theorem cursorWrittenOnlyBySetters : Obligations.CursorWrittenOnlyBySetters := by
  intro i s t h
  obtain ⟨c, rfl⟩ | ⟨u, rfl, heff⟩ := exec_next h
  · exact ⟨fun _ => ⟨rfl, rfl⟩, fun _ => rfl, fun _ => rfl⟩
  · exact heff.style_frame

/-! ### Independence from the cursor and style registers -/

/-- Mapping the value of a check before going on is going on with the mapped value. -/
theorem State.orFault_map {α β : Type} (s : State) (r : Except FaultCause α) (f : α → β)
    (k : β → Host.Outcome State Fault Refusal) : s.orFault (r.map f) k = s.orFault r fun a => k (f a) := by
  cases r <;> rfl

/-- Two checks in a row are one check that takes the first fault. -/
theorem State.orFault_bind {α β : Type} (s : State) (r : Except FaultCause α) (f : α → Except FaultCause β)
    (k : β → Host.Outcome State Fault Refusal) :
    s.orFault (r.bind f) k = s.orFault r fun a => s.orFault (f a) k := by
  cases r <;> rfl

/-- The direct drawing commands of R27. -/
def isDirectDrawing (i : Instr) : Prop :=
  i.op = .setPixel ∨ i.op = .drawRect ∨ i.op = .drawChar ∨ i.op = .drawStr ∨ i.op = .drawInt

/-- The key fact of R27: a direct drawing command is one check, of the configuration and the framebuffer alone, whose
value is the new framebuffer. -/
theorem exec_directDrawing {i : Instr} (h : isDirectDrawing i) :
    ∃ r : Config → Memory → Except FaultCause Memory,
      ∀ s : State, exec i s = s.orFault (r s.cfg s.fb) fun fb => .next ((s.setFb fb).advance i.length) := by
  cases i with
  | setPixel x y color =>
    refine ⟨fun _ fb => (checkCol color).map fun code => writePixel x.toInt y.toInt (directiveOfCode code) fb,
      fun s => ?_⟩
    rw [State.orFault_map]
    rfl
  | drawRect x y w height color =>
    refine ⟨fun _ fb => (checkCol color).map fun code =>
      fillRect x.toInt y.toInt w.toInt height.toInt (directiveOfCode code) fb, fun s => ?_⟩
    rw [State.orFault_map]
    rfl
  | drawChar x y size color glyph =>
    refine ⟨fun _ fb => (checkCol color).map fun code =>
      drawGlyph x.toInt y.toInt glyph size.toInt (directiveOfCode code) fb, fun s => ?_⟩
    rw [State.orFault_map]
    rfl
  | drawStr x y fbase size color text =>
    refine ⟨fun cfg fb => (checkCol color).bind fun code =>
      drawText cfg x.toInt y.toInt text fbase.toNat size.toInt (directiveOfCode code) fb, fun s => ?_⟩
    rw [State.orFault_bind]
    rfl
  | drawInt x y fbase size color num =>
    refine ⟨fun cfg fb => (checkCol color).bind fun code => (formatInt cfg num.toInt).bind fun text =>
      drawText cfg x.toInt y.toInt text fbase.toNat size.toInt (directiveOfCode code) fb, fun s => ?_⟩
    simp only [State.orFault_bind]
    rfl
  | getPixel | setCursor | setFontSize | setColor | printStr | printChar | printInt | clear | sync | begin =>
    simp [isDirectDrawing, Instr.op] at h

/-- Settles O22: by `exec_directDrawing` the check has the same result whatever the cursor and style registers hold,
and neither the fault nor the new framebuffer touches them. -/
theorem directDrawingIsIndependentOfCursor : Obligations.DirectDrawingIsIndependentOfCursor := by
  intro i s t cx cy sz col hi h
  obtain ⟨r, hr⟩ := exec_directDrawing hi
  rw [hr] at h ⊢
  obtain ⟨c, hc, rfl⟩ | ⟨fb, hfb, hk⟩ := State.orFault_next h
  · exact ⟨by rw [hc]; rfl, rfl, rfl, rfl, rfl⟩
  · cases hk
    exact ⟨by rw [hfb]; rfl, rfl, rfl, rfl, rfl⟩

end Sys2Proof.Machine
end

section
/-! SUPPORT. What the decoder reads as a command is that command's packet (30_encoding.md R81, R86 to R100), so a decoded
command lies inside the bytes it was read from. -/

namespace Sys2Proof

/-- A command's packet is as long as the length column of R88 says. -/
theorem encode_length (i : Instr) : (encode i).length = i.length := by
  have operandLength : Laws.OperandLength.Statement i := by
    cases i with
    | setPixel => exact Laws.OperandLength.setPixel ..
    | getPixel => exact Laws.OperandLength.getPixel ..
    | drawRect => exact Laws.OperandLength.drawRect ..
    | drawChar => exact Laws.OperandLength.drawChar ..
    | drawStr => exact Laws.OperandLength.drawStr ..
    | drawInt => exact Laws.OperandLength.drawInt ..
    | setCursor => exact Laws.OperandLength.setCursor ..
    | setFontSize => exact Laws.OperandLength.setFontSize ..
    | setColor => exact Laws.OperandLength.setColor ..
    | printStr => exact Laws.OperandLength.printStr ..
    | printChar => exact Laws.OperandLength.printChar ..
    | printInt => exact Laws.OperandLength.printInt ..
    | clear => exact Laws.OperandLength.clear
    | sync => exact Laws.OperandLength.sync
    | begin => exact Laws.OperandLength.begin
  exact operandLength

/-! ### The formats that serve two commands -/

theorem decodeXY_instr {k : Half → Half → Instr} {bs rest : List Byte} {i : Instr}
    (h : decodeXY k bs = .instr i rest) : ∃ x y, i = k x y ∧ bs = bytes16 x ++ bytes16 y ++ rest := by
  unfold decodeXY at h
  split at h
  · cases h
    exact ⟨_, _, rfl, by simp [bytes16_le16]⟩
  · cases h

theorem decodeByte_instr {k : Byte → Instr} {bs rest : List Byte} {i : Instr}
    (h : decodeByte k bs = .instr i rest) : ∃ c, i = k c ∧ bs = c :: rest := by
  cases bs with
  | nil => cases h
  | cons c bs =>
    cases h
    exact ⟨c, rfl, rfl⟩

theorem decodeText_instr {textMax : Nat} {bs rest : List Byte} {k : List Byte → Instr} {i : Instr}
    (h : decodeText textMax bs k = .instr i rest) :
    ∃ text, i = k text ∧ bs = text ++ 0 :: rest ∧ textWellFormed textMax text = true := by
  unfold decodeText at h
  split at h
  next text after hscan =>
    cases h
    obtain ⟨hbytes, hlen, hne⟩ := scanText_sound hscan
    refine ⟨text, rfl, hbytes, ?_⟩
    simpa [textWellFormed] using And.intro (Nat.le_of_lt_succ hlen) hne
  · cases h
  · cases h

/-! ### All formats -/

/-- What the operand decoder reads is a well-formed command of the opcode, and it consumed exactly its operand bytes. -/
theorem decodeOperands_instr {textMax : Nat} {op : Op} {bs rest : List Byte} {i : Instr}
    (h : decodeOperands textMax op bs = .instr i rest) :
    i.op = op ∧ bs = i.operandBytes ++ rest ∧ i.wellFormed textMax = true := by
  cases op with
  | setPixel =>
    simp only [decodeOperands, decodeXYC] at h
    split at h <;> cases h
    exact ⟨rfl, by simp [Instr.operandBytes, bytes16_le16], rfl⟩
  | drawRect =>
    simp only [decodeOperands, decodeRECT] at h
    split at h <;> cases h
    exact ⟨rfl, by simp [Instr.operandBytes, bytes16_le16], rfl⟩
  | drawChar =>
    simp only [decodeOperands, decodeGLYPH] at h
    split at h <;> cases h
    exact ⟨rfl, by simp [Instr.operandBytes, bytes16_le16, glyphBytes], rfl⟩
  | drawStr =>
    simp only [decodeOperands, decodeSTR] at h
    split at h
    · obtain ⟨text, rfl, rfl, hwf⟩ := decodeText_instr h
      exact ⟨rfl, by simp [Instr.operandBytes, bytes16_le16], hwf⟩
    · cases h
  | drawInt =>
    simp only [decodeOperands, decodeNUM] at h
    split at h <;> cases h
    exact ⟨rfl, by simp [Instr.operandBytes, bytes16_le16, bytes32_le32], rfl⟩
  | setFontSize =>
    simp only [decodeOperands, decodeH] at h
    split at h <;> cases h
    exact ⟨rfl, by simp [Instr.operandBytes, bytes16_le16], rfl⟩
  | printInt =>
    simp only [decodeOperands, decodeW] at h
    split at h <;> cases h
    exact ⟨rfl, by simp [Instr.operandBytes, bytes32_le32], rfl⟩
  | getPixel | setCursor =>
    obtain ⟨x, y, rfl, hbytes⟩ := decodeXY_instr h
    exact ⟨rfl, hbytes, rfl⟩
  | setColor | printChar =>
    obtain ⟨c, rfl, hbytes⟩ := decodeByte_instr h
    exact ⟨rfl, hbytes, rfl⟩
  | printStr =>
    obtain ⟨text, rfl, hbytes, hwf⟩ := decodeText_instr h
    exact ⟨rfl, by simp [hbytes, Instr.operandBytes], hwf⟩
  | clear | sync | begin =>
    cases h
    exact ⟨rfl, rfl, rfl⟩

/-- A decoded command is admitted, and the bytes were its packet and then the rest. -/
theorem decode_instr {cfg : Config} {bs rest : List Byte} {i : Instr} (h : decode cfg bs = .instr i rest) :
    bs = encode i ++ rest ∧ i.admitted cfg = true := by
  unfold decode at h
  split at h
  · cases h
  next b bs =>
    split at h
    · cases h
    next op hop =>
      split_ifs at h with hoffers
      obtain ⟨rfl, rfl, hwf⟩ := decodeOperands_instr h
      refine ⟨?_, ?_⟩
      · rw [encode, code_of_opOfByte hop, List.cons_append]
      · simp [Instr.admitted, hwf, hoffers]

/-- A decoded command fits into the bytes it was read from. -/
theorem decode_length_le {cfg : Config} {bs rest : List Byte} {i : Instr} (h : decode cfg bs = .instr i rest) :
    i.length ≤ bs.length := by
  obtain ⟨rfl, -⟩ := decode_instr h
  rw [List.length_append, encode_length]
  exact Nat.le_add_right _ _

end Sys2Proof
end

section
/-! SUPPORT. Proofs of the statements about memory and the output logs (20_memory.md): what a command appends to `RSP`
and `TX` (R60), the invariant every step keeps (R51), and drawing twice in a row (R59). -/

namespace Sys2Proof.Machine

/-! ### The response stream -/

/-- The response bytes of a command (R60). -/
def response (i : Instr) (s : State) : List Byte :=
  match i with
  | .getPixel x y => [responseByte (readPixel x.toInt y.toInt s.fb)]
  | .begin => [responseByte s.nextAck]
  | _ => []

theorem responseByte_bit (b : Bool) : responseByte b = 0 ∨ responseByte b = 1 := by
  cases b
  · exact .inl rfl
  · exact .inr rfl

theorem response_bit {i : Instr} {s : State} {b : Byte} (h : b ∈ response i s) : b = 0 ∨ b = 1 := by
  cases i with
  | getPixel | begin =>
    obtain rfl := List.mem_singleton.mp h
    exact responseByte_bit _
  | setPixel | drawRect | drawChar | drawStr | drawInt | setCursor | setFontSize | setColor | printStr | printChar
  | printInt | clear | sync => cases h

/-- An effect appends its command's response to `RSP`. -/
theorem Effect.rsp {i : Instr} {s u : State} (h : Effect i s u) : u.rsp = s.rsp ++ response i s := by
  cases i with
  | setPixel | drawRect | drawChar | drawStr | drawInt | printStr | printChar | printInt | clear =>
    obtain ⟨fb, rfl, -⟩ := h
    exact (List.append_nil _).symm
  | setCursor | setFontSize | setColor | sync =>
    subst h
    exact (List.append_nil _).symm
  | getPixel | begin =>
    subst h
    rfl

/-- An effect leaves `TX` as it was unless its command is `SYNC` or `BEGIN`. -/
theorem Effect.tx_frame {i : Instr} {s u : State} (h : Effect i s u) (hsync : i ≠ .sync) (hbegin : i ≠ .begin) :
    u.tx = s.tx := by
  cases i with
  | setPixel | drawRect | drawChar | drawStr | drawInt | printStr | printChar | printInt | clear =>
    obtain ⟨fb, rfl, -⟩ := h
    rfl
  | getPixel | setCursor | setFontSize | setColor =>
    subst h
    rfl
  | sync => exact absurd rfl hsync
  | begin => exact absurd rfl hbegin

/-- A command appends its response to `RSP`: the two that respond cannot fault, and a fault appends nothing. -/
theorem exec_rsp {i : Instr} {s t : State} (h : exec i s = .next t) : t.rsp = s.rsp ++ response i s := by
  cases i with
  | getPixel | begin =>
    cases h
    rfl
  | _ =>
    obtain ⟨c, rfl⟩ | ⟨u, rfl, heff⟩ := exec_next h
    · exact (List.append_nil _).symm
    · exact heff.rsp

/-- Settles O20: `exec_rsp` gives the response of each command, and neither a fault nor the effect of another command
than `SYNC` and `BEGIN` touches `TX`. -/
theorem onlyGetpixelAndBeginRespond : Obligations.OnlyGetpixelAndBeginRespond := by
  intro i s t h
  constructor
  · rw [exec_rsp h]
    cases i with
    | getPixel | begin => rfl
    | _ => exact List.append_nil _
  · intro hsync hbegin
    obtain ⟨c, rfl⟩ | ⟨u, rfl, heff⟩ := exec_next h
    · rfl
    · exact heff.tx_frame hsync hbegin

/-! ### The invariant -/

/-- Fault entry keeps the invariant: it writes a code of R221 and the offset `PC` still holds. -/
theorem State.Inv.takeFault {s : State} (h : s.Inv) (c : FaultCause) : (s.takeFault c).Inv :=
  { h with
    fault_code := c.code_range.2
    fault_pc := by simp }

/-- An effect keeps a framebuffer in canonical form so. -/
theorem Effect.wf_fb {i : Instr} {s u : State} (h : Effect i s u) (hwf : Memory.wf s.fb = true) :
    Memory.wf u.fb = true := by
  cases i with
  | setPixel | drawRect | drawChar | drawStr | drawInt | printStr | printChar | printInt | clear =>
    obtain ⟨fb, rfl, hfb⟩ := h
    exact hfb hwf
  | getPixel | setCursor | setFontSize | setColor | sync | begin =>
    subst h
    exact hwf

/-- The effect of a command that lies inside the stream keeps the invariant, with `PC` moved past the command. -/
theorem State.Inv.advance {s u : State} {i : Instr} (h : s.Inv) (hrun : s.fault = 0) (heff : Effect i s u)
    (hlen : s.pc + i.length ≤ s.cmd.length) : (u.advance i.length).Inv := by
  obtain ⟨hpc, hfault, hfaultPc, hcfg, hcmd, -⟩ := heff.frame
  obtain ⟨-, ts, htx, hts⟩ := heff.appends
  exact
    { fb_wf := heff.wf_fb h.fb_wf
      stream := hcmd ▸ h.stream
      pc_le := by simpa [hpc, hcmd] using hlen
      fault_code := by simpa [hfault] using h.fault_code
      fault_pc := by simpa [hfault, hfaultPc, hrun] using h.fault_pc
      rsp_bit := fun b hb => by
        rw [State.advance_rsp, heff.rsp] at hb
        exact (List.mem_append.mp hb).elim (h.rsp_bit b) response_bit
      tx_carried := fun t ht => by
        rw [State.advance_tx, htx] at ht
        rw [State.advance_cfg, hcfg]
        exact (List.mem_append.mp ht).elim (h.tx_carried t) (hts t) }

/-- Settles O16: a fault keeps the invariant; a command that completes was decoded from the bytes at `PC`, so it ends
inside the stream, and its effect keeps the invariant. -/
theorem stepKeepsInvariant : Obligations.StepKeepsInvariant := by
  intro s t hinv h
  obtain ⟨hrun, hpc, ⟨i, rest, hdecode, hexec⟩ | ⟨c, rfl⟩⟩ := step_next h
  · obtain ⟨c, rfl⟩ | ⟨u, rfl, heff⟩ := exec_next hexec
    · exact hinv.takeFault c
    · have hlen : i.length ≤ s.cmd.length - s.pc := by
        simpa [State.fetchBytes] using decode_length_le hdecode
      exact hinv.advance hrun heff (by omega)
  · exact hinv.takeFault c

/-! ### Drawing twice -/

/-- Two inversions restore a bit; any other directive given twice does what it does once (R59). -/
theorem onBit_onBit (d : Directive) (v : Bool) : onBit d (onBit d v) = if d = .invert then v else onBit d v := by
  cases d with
  | set | clear | ignore => rfl
  | invert => exact Bool.not_not v

/-- A picture that only inverts, painted twice, restores the framebuffer. -/
theorem Paints.twice_invert {f g h : Memory} {D : Int → Int → Directive} (h1 : Paints f g D) (h2 : Paints g h D)
    (hD : ∀ px py, D px py = .invert ∨ D px py = .ignore) : Paints f h fun _ _ => .ignore := by
  intro a b hb
  rw [h2 a b hb, h1 a b hb]
  by_cases ha : a < FB_BYTES
  · simp only [if_pos ha, onBit_ignore]
    obtain hinv | hign := hD ((a % 128 : Nat) : Int) ((8 * (a / 128) + b : Nat) : Int)
    · rw [hinv, onBit_onBit, if_pos rfl]
    · simp only [hign, onBit_ignore]
  · simp only [if_neg ha]

/-- A picture that inverts nothing, painted twice, is the picture painted once. -/
theorem Paints.twice_of_ne_invert {f g h : Memory} {D : Int → Int → Directive} (h1 : Paints f g D) (h2 : Paints g h D)
    (hD : ∀ px py, D px py ≠ .invert) : Paints f h D := by
  intro a b hb
  rw [h2 a b hb, h1 a b hb]
  by_cases ha : a < FB_BYTES
  · simp only [if_pos ha, onBit_onBit, if_neg (hD _ _)]
  · simp only [if_neg ha]

theorem directiveOfCode_colCode_eq_invert_iff {v : Byte} (h : v.toNat ≤ 3) :
    directiveOfCode (colCode v) = .invert ↔ v = 2 := by
  revert v; decide

/-- The three commands of R59, with the `col` byte they carry. -/
def drawsShape (i : Instr) (color : Byte) : Prop :=
  (∃ x y, i = .setPixel x y color) ∨ (∃ x y w h, i = .drawRect x y w h color) ∨
    ∃ x y size g, i = .drawChar x y size color g

/-- `D` is the picture of the command: on a framebuffer in canonical form the command paints it and leaves one. -/
def PaintedBy (i : Instr) (D : Int → Int → Directive) : Prop :=
  ∀ s t : State, Memory.wf s.fb = true → exec i s = .next t → Memory.wf t.fb = true ∧ Paints s.fb t.fb D

theorem paintedBy_setPixel (x y : Half) {color : Byte} (hcol : color.toNat ≤ 3) :
    PaintedBy (.setPixel x y color) (pixelMap x.toInt y.toInt (directiveOfCode (colCode color))) := by
  intro s t hwf h
  simp only [exec, execSetPixel, checkCol_ok hcol, State.orFault_ok] at h
  cases h
  exact ⟨wf_writePixel hwf _ _ _, paints_writePixel hwf _ _ _⟩

theorem paintedBy_drawRect (x y w height : Half) {color : Byte} (hcol : color.toNat ≤ 3) :
    PaintedBy (.drawRect x y w height color)
      (rectMap x.toInt y.toInt w.toInt height.toInt (directiveOfCode (colCode color))) := by
  intro s t hwf h
  simp only [exec, execDrawRect, checkCol_ok hcol, State.orFault_ok] at h
  cases h
  exact fillRect_spec hwf _ _ _ _ _

theorem paintedBy_drawChar (x y size : Half) (g : Glyph) {color : Byte} (hcol : color.toNat ≤ 3) :
    PaintedBy (.drawChar x y size color g)
      (glyphMap x.toInt y.toInt g size.toInt (directiveOfCode (colCode color))) := by
  intro s t hwf h
  simp only [exec, execDrawChar, checkCol_ok hcol, State.orFault_ok] at h
  cases h
  exact drawGlyph_spec hwf _ _ _ _ _

/-- The picture of such a command has at each pixel the directive of its `col` byte, or none. -/
theorem drawsShape_picture {i : Instr} {color : Byte} (hcol : color.toNat ≤ 3) (h : drawsShape i color) :
    ∃ D, PaintedBy i D ∧ ∀ px py, D px py = directiveOfCode (colCode color) ∨ D px py = .ignore := by
  obtain ⟨x, y, rfl⟩ | ⟨x, y, w, height, rfl⟩ | ⟨x, y, size, g, rfl⟩ := h
  · exact ⟨_, paintedBy_setPixel x y hcol, fun _ _ => ite_eq_or_eq _ _ _⟩
  · exact ⟨_, paintedBy_drawRect x y w height hcol, fun _ _ => ite_eq_or_eq _ _ _⟩
  · refine ⟨_, paintedBy_drawChar x y size g hcol, fun px py => ?_⟩
    unfold glyphMap
    split_ifs
    · exact cellColor_cases _ _
    · exact .inr rfl

/-- Settles O33: the second drawing paints the same picture on the result of the first, and a picture determines the
framebuffer. -/
theorem drawingTwiceRestoresOrRepeats : Obligations.DrawingTwiceRestoresOrRepeats := by
  intro s t u i color hwf hcol hi hfirst hsecond
  obtain ⟨D, hpaint, hD⟩ := drawsShape_picture hcol hi
  obtain ⟨hwft, hst⟩ := hpaint s t hwf hfirst
  obtain ⟨hwfu, htu⟩ := hpaint t u hwft hsecond
  have hinvert := directiveOfCode_colCode_eq_invert_iff hcol
  constructor
  · intro htwo
    rw [hinvert.mpr htwo] at hD
    exact (hst.twice_invert htu hD).unique (Paints.refl s.fb) hwfu hwf
  · intro hne
    have hkeep : ∀ px py, D px py ≠ .invert := by
      intro px py hc
      obtain hd | hign := hD px py
      · exact hne (hinvert.mp (hd.symm.trans hc))
      · exact absurd (hign.symm.trans hc) (by decide)
    exact (hst.twice_of_ne_invert htu hkeep).unique hst hwfu hwft

end Sys2Proof.Machine
end

section
/-! SUPPORT. Proofs of the statements about encoding and sequencing (30_encoding.md): decoding and encoding are inverse
to each other (R80 to R107), which bytes raise `IllegalCommand` (R104), what the head of a step does (R81), and what a
run keeps. -/

namespace Sys2Proof

/-! ### Decoding a packet -/

/-- A well-formed text and its terminator are read whole, whatever follows (R86). -/
theorem decodeText_append {textMax : Nat} {text : List Byte} (h : textWellFormed textMax text = true)
    (rest : List Byte) (k : List Byte → Instr) :
    decodeText textMax (text ++ 0#8 :: rest) k = .instr (k text) rest := by
  obtain ⟨hlen, hne⟩ : text.length ≤ textMax ∧ ∀ b ∈ text, b ≠ 0 := by simpa [textWellFormed] using h
  have hscan : scanText (textMax + 1) (text ++ 0#8 :: rest) = .found text rest :=
    scanText_found hne rest (Nat.lt_succ_of_le hlen)
  rw [decodeText, hscan]

/-- The operand decoder reads a command back from its operand bytes: the operands of fixed length are put together from
the bytes they were split into, and a text is read up to its terminator. -/
theorem decodeOperands_operandBytes {textMax : Nat} {i : Instr} (h : i.wellFormed textMax = true) (rest : List Byte) :
    decodeOperands textMax i.op (i.operandBytes ++ rest) = .instr i rest := by
  cases i with
  | setPixel => simp [Instr.op, Instr.operandBytes, decodeOperands, decodeXYC, bytes16, le16_bytes]
  | getPixel | setCursor => simp [Instr.op, Instr.operandBytes, decodeOperands, decodeXY, bytes16, le16_bytes]
  | drawRect => simp [Instr.op, Instr.operandBytes, decodeOperands, decodeRECT, bytes16, le16_bytes]
  | drawChar => simp [Instr.op, Instr.operandBytes, decodeOperands, decodeGLYPH, bytes16, glyphBytes, le16_bytes]
  | drawStr =>
    simp [Instr.op, Instr.operandBytes, decodeOperands, decodeSTR, bytes16, le16_bytes, decodeText_append h]
  | drawInt => simp [Instr.op, Instr.operandBytes, decodeOperands, decodeNUM, bytes16, bytes32, le16_bytes, le32_bytes]
  | setFontSize => simp [Instr.op, Instr.operandBytes, decodeOperands, decodeH, bytes16, le16_bytes]
  | printStr => simp [Instr.op, Instr.operandBytes, decodeOperands, decodeText_append h]
  | printInt => simp [Instr.op, Instr.operandBytes, decodeOperands, decodeW, bytes32, le32_bytes]
  | setColor | printChar | clear | sync | begin => rfl

/-- The packet of an admitted command decodes to the command, whatever follows. -/
theorem decode_encode {cfg : Config} {i : Instr} (h : i.admitted cfg = true) (rest : List Byte) :
    decode cfg (encode i ++ rest) = .instr i rest := by
  obtain ⟨hwf, hoffers⟩ : i.wellFormed cfg.textMax = true ∧ cfg.offers i.op.profile = true := by
    simpa [Instr.admitted] using h
  simp only [encode, List.cons_append, decode, opOfByte_code, if_pos hoffers]
  exact decodeOperands_operandBytes hwf rest

/-- Settles O4: the opcode is read back as the opcode, and the operand bytes as the operands. -/
theorem decodeOfEncodeIsTheCommand : Obligations.DecodeOfEncodeIsTheCommand :=
  fun _ _ rest h => decode_encode h rest

/-- Settles O5: `decode_instr`, whose text fields are what `scanText_sound` says of the scan. -/
theorem decodedBytesAreThePacket : Obligations.DecodedBytesAreThePacket :=
  fun _ _ _ _ h => decode_instr h

/-- Settles O6: by `encode_length`, and the opcode is the packet's head. -/
theorem packetLengthIsTheTabulatedLength : Obligations.PacketLengthIsTheTabulatedLength :=
  fun i => ⟨encode_length i, rfl⟩

/-- Settles O7: the decoder runs on each packet. -/
theorem writtenOutPacketsDecode : Obligations.WrittenOutPacketsDecode := by
  unfold Obligations.WrittenOutPacketsDecode
  decide

/-- Settles O56: each packet is the row of its format table by definition. -/
theorem packetsFollowTheFormatTables : Obligations.PacketsFollowTheFormatTables :=
  ⟨fun _ _ _ => rfl, fun _ _ => rfl, fun _ _ _ _ _ => rfl, fun _ _ _ _ _ _ _ _ _ _ _ _ => rfl,
    fun _ _ _ _ _ _ => rfl, fun _ _ _ _ _ _ => rfl, fun _ _ => rfl, fun _ => rfl, fun _ => rfl, fun _ => rfl,
    fun _ => rfl, fun _ => rfl, rfl, rfl, rfl⟩

/-! ### Operands -/

/-- A 16-bit operand read as `i16` is the two's complement value of its bytes (R84). -/
theorem le16_toInt (b0 b1 : Byte) :
    (le16 b0 b1).toInt =
      if b0.toNat + 256 * b1.toNat < 32768 then ((b0.toNat + 256 * b1.toNat : Nat) : Int)
      else ((b0.toNat + 256 * b1.toNat : Nat) : Int) - 65536 := by
  rw [BitVec.toInt_eq_toNat_cond, le16_toNat]
  split_ifs <;> omega

/-- A 32-bit operand read as `i32` is the two's complement value of its pattern (R84). -/
theorem word32_toInt (v : Word32) :
    v.toInt = if v.toNat < 2147483648 then (v.toNat : Int) else (v.toNat : Int) - 4294967296 := by
  rw [BitVec.toInt_eq_toNat_cond]
  split_ifs <;> omega

/-- Settles O55: the bytes make up the pattern as `le16_toNat` and `le32_toNat` say, its sign is two's complement, and
splitting it gives the bytes back. -/
theorem operandBytesAreLittleEndian : Obligations.OperandBytesAreLittleEndian :=
  ⟨fun b0 b1 => ⟨le16_toNat b0 b1, le16_toInt b0 b1, bytes16_le16 b0 b1⟩,
    fun b0 b1 b2 b3 => ⟨le32_toNat b0 b1 b2 b3, word32_toInt _, bytes32_le32 b0 b1 b2 b3⟩,
    by decide, by decide, by decide⟩

/-! ### Illegal opcodes -/

/-- A byte that is no opcode of a present profile is illegal, whatever follows (R104). -/
theorem decode_illegalCommand {cfg : Config} {b : Byte} (h : ∀ op : Op, op.code = b → cfg.offers op.profile = false)
    (bs : List Byte) : decode cfg (b :: bs) = .illegalCommand b := by
  rw [decode]
  cases hop : opOfByte b with
  | none => rfl
  | some op => simp [h op (code_of_opOfByte hop)]

end Sys2Proof

namespace Sys2Proof.Machine

/-! ### The head of a step -/

theorem step_halted {s : State} (h : s.halted) : step s = .fault .halted := by
  have hfetch : fetch s = .stop .halted := if_pos h
  rw [step, hfetch]

theorem step_finished {s : State} (h : s.final) : step s = .fault .finished := by
  obtain ⟨hpc, hrun⟩ := h
  rw [step, fetch, if_neg (not_not.mpr hrun), if_pos hpc]

/-- A running engine with bytes left decodes them. -/
theorem fetch_running {s : State} (hrun : s.fault = 0) (hpc : s.pc < s.cmd.length) :
    fetch s = fetchedOf (decode s.cfg s.fetchBytes) := by
  rw [fetch, if_neg (not_not.mpr hrun), if_neg hpc.ne, if_neg hpc.asymm]

/-- Bytes left at `PC` put it before the end of the stream, so a running engine decodes them. -/
theorem fetch_of_drop_eq_cons {s : State} {b : Byte} {bs : List Byte} (hrun : s.fault = 0)
    (hbytes : s.cmd.drop s.pc = b :: bs) : fetch s = fetchedOf (decode s.cfg (b :: bs)) := by
  have hpc : s.pc < s.cmd.length := by
    by_contra hge
    simp [List.drop_eq_nil_of_le (Nat.le_of_not_lt hge)] at hbytes
  rw [fetch_running hrun hpc, State.fetchBytes, hbytes]

/-- Settles O8: the bytes at `PC` decode to the command. -/
theorem stepRunsTheDecodedCommand : Obligations.StepRunsTheDecodedCommand := by
  intro s i rest hrun hadm hbytes
  have hfetch : fetch s = fetchedOf (decode s.cfg (encode i ++ rest)) := fetch_of_drop_eq_cons hrun hbytes
  rw [step, hfetch, decode_encode hadm]
  rfl

/-- Settles O9: every opcode of R88 lies outside the unassigned ranges, so the byte is none, or one of a profile that
is absent. -/
theorem unassignedOpcodeRaisesIllegalCommand : Obligations.UnassignedOpcodeRaisesIllegalCommand := by
  intro s b bs hrun hbytes hb
  have hillegal : ∀ op : Op, op.code = b → s.cfg.offers op.profile = false := by
    rintro op rfl
    cases op with
    | setPixel | getPixel | drawRect | drawChar | clear => simp [Op.code] at hb
    | drawStr | drawInt | setCursor | setFontSize | setColor | printStr | printChar | printInt | sync | begin =>
      simpa [Op.code, Op.profile, Config.offers] using hb
  rw [step, fetch_of_drop_eq_cons hrun hbytes, decode_illegalCommand hillegal]
  rfl

/-- Settles O12: `FAULT` is looked at first, then the end of the stream. -/
theorem haltedAndFinishedHaveNoStep : Obligations.HaltedAndFinishedHaveNoStep :=
  fun _ => ⟨step_halted, step_finished⟩

/-- Settles O13: a running engine before the end of its stream performs the command it decodes, which always answers a
next state, or takes a fault of the sequencer, or is stuck. -/
theorem everyStateStepsOrIsHaltedFinishedOrStuck : Obligations.EveryStateStepsOrIsHaltedFinishedOrStuck := by
  intro s hinv
  by_cases hrun : s.fault = 0
  · obtain hend | hpc := hinv.pc_le.eq_or_lt
    · exact .inr (.inl ⟨step_finished ⟨hend, hrun⟩, hend, hrun⟩)
    · refine .inr (.inr ?_)
      rw [step, fetch_running hrun hpc]
      cases decode s.cfg s.fetchBytes with
      | instr i rest => exact .inr (exec_total i s)
      | illegalCommand op => exact .inr ⟨_, rfl⟩
      | textUnterminated => exact .inr ⟨_, rfl⟩
      | truncated => exact .inl rfl
  · exact .inl ⟨step_halted hrun, hrun⟩

/-- Settles O14: with `FAULT` at 0 the step took no fault, so it performed the decoded command, whose packet stands at
`PC`. -/
theorem completedStepAdvancesByTheCommand : Obligations.CompletedStepAdvancesByTheCommand := by
  intro s t h hfault
  obtain ⟨-, hpc, ⟨i, rest, hdecode, hexec⟩ | ⟨c, rfl⟩⟩ := step_next h
  · obtain ⟨hbytes, hadm⟩ := decode_instr hdecode
    obtain ⟨c, rfl⟩ | ⟨u, rfl, heff⟩ := exec_next hexec
    · exact absurd hfault c.code_ne_zero
    · obtain ⟨hu, -⟩ := heff.frame
      have hlen : i.length ≤ s.cmd.length - s.pc := by
        simpa [State.fetchBytes] using decode_length_le hdecode
      refine ⟨i, rest, hbytes, hadm, hexec, ?_, ?_⟩
      · rw [State.advance_pc, hu, encode_length]
      · rw [State.advance_pc, hu]
        omega
  · exact absurd hfault c.code_ne_zero

/-! ### Runs -/

/-- `PC` never moves backwards: a fault leaves it, and a command that completes advances it (R81). -/
theorem step_pc_le {s t : State} (h : step s = .next t) : s.pc ≤ t.pc := by
  obtain ⟨c, rfl⟩ | ⟨i, u, rfl, heff⟩ := step_effect h
  · exact Nat.le_refl s.pc
  · obtain ⟨hu, -⟩ := heff.frame
    rw [State.advance_pc, hu]
    exact Nat.le_add_right _ _

/-- Settles O17, by induction on the run: each step keeps the invariant, moves `PC` forward and only appends to the
logs, and from a halted state there is none. -/
theorem runsKeepTheInvariantAndHaltForGood : Obligations.RunsKeepTheInvariantAndHaltForGood := by
  intro s t hreach
  induction hreach with
  | here => exact ⟨id, Nat.le_refl _, ⟨[], List.append_nil _⟩, ⟨[], List.append_nil _⟩, fun _ => rfl⟩
  | @after t u head last ih =>
    obtain ⟨hinv, hpc, hrsp, htx, hhalt⟩ := ih
    obtain ⟨⟨bs, hbs, -⟩, ts, hts, -⟩ := outputLogsOnlyGrow t u last
    refine ⟨fun h => stepKeepsInvariant t u (hinv h) last, hpc.trans (step_pc_le last),
      hrsp.trans ⟨bs, hbs.symm⟩, htx.trans ⟨ts, hts.symm⟩, fun h => ?_⟩
    obtain rfl := hhalt h
    obtain ⟨hrun, -⟩ := step_next last
    exact absurd hrun h

/-! ### Color codes -/

/-- Settles O43: the definition's four rows. -/
theorem colorCodesNameTheDirectives : Obligations.ColorCodesNameTheDirectives :=
  ⟨rfl, rfl, rfl, rfl⟩

end Sys2Proof.Machine
end

section
/-! SUPPORT. Proofs of the statements about the pixel (40_pixel.md): the translator (R122), the laws of the write
operator and the read (R126), `SETPIXEL` and `GETPIXEL` (R127, R128), and `IGNORE` in every drawing command (R126,
R154). -/

namespace Sys2Proof.Machine

/-! ### The translator -/

/-- The mask is the one-hot decode of the bit position (R121). -/
theorem bitMask_toNat (y : Int) : (bitMask y).toNat = 2 ^ pagePosition y := by
  have hlt : 2 ^ pagePosition y < 2 ^ 8 := Nat.pow_lt_pow_right (by decide) (pagePosition_lt y)
  simpa [bitMask, Nat.shiftLeft_eq] using hlt

/-- Settles O23: `translator_inverse`, read from the pixel to its byte and bit and back. -/
theorem translatorIsABijection : Obligations.TranslatorIsABijection := by
  constructor
  · intro x y hx0 hx hy0 hy
    have hr : inRange x y = true := (inRange_iff x y).mpr ⟨⟨hx0, hx⟩, hy0, hy⟩
    obtain ⟨hlt, hcol, hrow⟩ := (translator_inverse hr (pagePosition_lt y)).mp ⟨rfl, rfl⟩
    exact ⟨hlt, pagePosition_lt y, hcol, hrow, bitMask_toNat y⟩
  · intro a b ha hb
    have hr : inRange ((a % 128 : Nat) : Int) ((8 * (a / 128) + b : Nat) : Int) = true :=
      (inRange_iff _ _).mpr (by omega)
    exact ⟨hr, (translator_inverse hr hb).mpr ⟨ha, rfl, rfl⟩⟩

/-! ### The write operator and the read -/

theorem pixelMap_self (x y : Int) (d : Directive) : pixelMap x y d x y = d := if_pos ⟨rfl, rfl⟩

theorem pixelMap_of_ne {x y px py : Int} (h : ¬ (px = x ∧ py = y)) (d : Directive) :
    pixelMap x y d px py = .ignore := if_neg h

/-- A read of the written pixel answers what the directive makes of its bit (R126). -/
theorem readPixel_writePixel_same {fb : Memory} (hwf : Memory.wf fb = true) {x y : Int} (hr : inRange x y = true)
    (d : Directive) : readPixel x y (writePixel x y d fb) = onBit d (readPixel x y fb) := by
  rw [(paints_writePixel hwf x y d).readPixel hr, pixelMap_self]

/-- A read of any other coordinates, in range or not, answers as before the write (R126). -/
theorem readPixel_writePixel_of_ne {fb : Memory} (hwf : Memory.wf fb = true) {x y x' y' : Int}
    (hne : ¬ (x' = x ∧ y' = y)) (d : Directive) :
    readPixel x' y' (writePixel x y d fb) = readPixel x' y' fb := by
  cases hr : inRange x' y' with
  | true => rw [(paints_writePixel hwf x y d).readPixel hr, pixelMap_of_ne hne, onBit_ignore]
  | false => rw [readPixel_outside hr, readPixel_outside hr]

theorem readPixel_nil (x y : Int) : readPixel x y [] = false := by
  simp [readPixel]

theorem inRange_eq_false_of_outside {x y : Int} (h : x < 0 ∨ 128 ≤ x ∨ y < 0 ∨ 64 ≤ y) : inRange x y = false := by
  rw [Bool.eq_false_iff, ne_eq, inRange_iff]
  omega

/-- Settles O24: in range the read answers what the directive makes of the pixel's bit, off the panel nothing is written
and 0 read, and a zero fill empties the memory. -/
theorem pixelWriteReadLaws : Obligations.PixelWriteReadLaws := by
  intro fb hwf
  refine ⟨fun x y hx0 hx hy0 hy => ?_, fun d x y hout => ?_, fun x y => ⟨writePixel_ignore x y fb, ?_⟩⟩
  · have hr : inRange x y = true := (inRange_iff x y).mpr ⟨⟨hx0, hx⟩, hy0, hy⟩
    exact ⟨readPixel_writePixel_same hwf hr .set, readPixel_writePixel_same hwf hr .clear,
      readPixel_writePixel_same hwf hr .invert, fun d _ _ hne => readPixel_writePixel_of_ne hwf hne d⟩
  · have hr := inRange_eq_false_of_outside hout
    exact ⟨writePixel_outside hr d fb, readPixel_outside hr fb⟩
  · rw [Memory.zeroFill_eq hwf, readPixel_nil]

/-! ### `SETPIXEL` -/

/-- The write operator writes no byte but the pixel's own (R124). -/
theorem read_writePixel_of_ne {fb : Memory} (hwf : Memory.wf fb = true) {x y : Int} (d : Directive) {a : Nat}
    (hne : ¬ (inRange x y = true ∧ a = byteIndex x y)) :
    Memory.read (writePixel x y d fb) a = Memory.read fb a := by
  cases hr : inRange x y with
  | false => rw [writePixel_outside hr]
  | true =>
    by_cases hd : d = .ignore
    · rw [hd, writePixel_ignore]
    · rw [writePixel_inside hr d hd, Memory.read_write (Memory.wf_sorted hwf), if_neg fun ha => hne ⟨hr, ha⟩]

/-- Settles O25: a legal `col` byte passes the check, and what follows is the write operator. -/
theorem setPixelChangesOnePixel : Obligations.SetPixelChangesOnePixel := by
  intro s x y color hwf hcol
  refine ⟨writePixel x.toInt y.toInt (directiveOfCode (colCode color)) s.fb, ?_, paints_writePixel hwf _ _ _,
    fun a hne => read_writePixel_of_ne hwf _ hne⟩
  rw [exec, execSetPixel, checkCol_ok hcol]
  rfl

/-! ### `GETPIXEL` -/

/-- The read spelled out: the coordinates are in range and the pixel's bit is set (R120, R121, R125). -/
theorem readPixel_iff (x y : Int) (fb : Memory) :
    readPixel x y fb = true ↔ (0 ≤ x ∧ x < 128 ∧ 0 ≤ y ∧ y < 64) ∧
      bitAt fb (y.toNat / 8 * 128 + x.toNat) (y.toNat % 8) = true := by
  cases hr : inRange x y with
  | true =>
    have hin : 0 ≤ x ∧ x < 128 ∧ 0 ≤ y ∧ y < 64 := and_assoc.mp ((inRange_iff x y).mp hr)
    rw [readPixel_eq_bitAt hr, and_iff_right hin]
    rfl
  | false =>
    have hout : ¬ (0 ≤ x ∧ x < 128 ∧ 0 ≤ y ∧ y < 64) := fun hin =>
      Bool.false_ne_true (hr.symm.trans ((inRange_iff x y).mpr (and_assoc.mpr hin)))
    simp [readPixel_outside hr, hout]

/-- Settles O26: the response byte is 1 exactly when the read answers true, which `readPixel_iff` spells out. -/
theorem getPixelAnswersThePixel : Obligations.GetPixelAnswersThePixel := by
  intro s x y
  refine ⟨rfl, ?_⟩
  simp only [← readPixel_iff]
  rfl

/-! ### `IGNORE` -/

/-- Every cell of a glyph drawn with `IGNORE` is painted with `IGNORE` (R152). -/
theorem cellColor_ignore (bit : Bool) : cellColor bit .ignore = .ignore := rfl

theorem fillRect_ignore (x y w h : Int) (fb : Memory) : fillRect x y w h .ignore fb = fb := rfl

theorem drawGlyphRow_ignore (x y : Int) (g : Glyph) (size : Int) (i : Nat) (fb : Memory) :
    drawGlyphRow x y g size .ignore i fb = fb :=
  List.foldl_fixed' (fun k => by rw [cellColor_ignore, fillRect_ignore]) _

/-- A glyph drawn with `IGNORE` leaves the framebuffer as it was (R154). -/
theorem drawGlyph_ignore (x y : Int) (g : Glyph) (size : Int) (fb : Memory) : drawGlyph x y g size .ignore fb = fb :=
  List.foldl_fixed' (fun k => drawGlyphRow_ignore x y g size (V_OFF + k) fb) _

theorem drawChars_ignore (cfg : Config) (y : Int) (base : Nat) (size : Int) (text : List Byte) (fb : Memory) :
    ∀ x : Int, drawChars cfg x y base size .ignore text fb = fb := by
  induction text with
  | nil => intro x; rfl
  | cons c text ih => intro x; rw [drawChars, drawGlyph_ignore, ih]

/-- Going on from a text drawn with `IGNORE`, or taking the fault it raised, leaves the framebuffer as it was. -/
theorem drawText_ignore_keeps_fb {s t : State} {cfg : Config} {x y size : Int} {text : List Byte} {base len : Nat}
    (h : s.orFault (drawText cfg x y text base size .ignore s.fb) (fun fb => .next ((s.setFb fb).advance len)) =
      .next t) : t.fb = s.fb := by
  obtain ⟨c, he⟩ | ⟨-, hok⟩ := drawText_cases cfg text base x y size .ignore s.fb
  · rw [he] at h
    cases h
    rfl
  · rw [hok, drawChars_ignore] at h
    cases h
    rfl

/-- A command leaves the framebuffer as it was if what follows its check does: a fault does not touch it (R223). -/
theorem State.orFault_keeps_fb {α : Type} {s t : State} {r : Except FaultCause α}
    {k : α → Host.Outcome State Fault Refusal} (h : s.orFault r k = .next t)
    (hk : ∀ a, k a = .next t → t.fb = s.fb) : t.fb = s.fb := by
  obtain ⟨c, -, rfl⟩ | ⟨a, -, ha⟩ := State.orFault_next h
  · rfl
  · exact hk a ha

/-- The directive of the `col` byte 3 (R85). -/
theorem directiveOfCode_colCode_three : directiveOfCode (colCode 3) = .ignore := by decide

/-- A direct drawing command with the `col` byte 3 goes on with `IGNORE` (R85, R105). -/
theorem orFault_checkCol_three (s : State) (k : BitVec 2 → Host.Outcome State Fault Refusal) :
    s.orFault (checkCol 3) k = k (colCode 3) := by
  rw [checkCol_ok (by decide), State.orFault_ok]

/-- With `IGNORE` in `COLOR` a print command leaves the framebuffer as it was, with a font or without one. -/
theorem exec_print_ignore_keeps_fb {s t : State} {i : Instr} (hcolor : s.color = 3)
    (hi : i.op = .printStr ∨ i.op = .printChar ∨ i.op = .printInt) (h : exec i s = .next t) : t.fb = s.fb := by
  have hd : directiveOfCode s.color = .ignore := by rw [hcolor]; rfl
  cases i with
  | printStr text =>
    simp only [exec, execPrintStr, State.printText, hd] at h
    split_ifs at h
    · exact drawText_ignore_keeps_fb h
    · cases h; rfl
  | printChar c =>
    simp only [exec, execPrintChar, hd, drawGlyph_ignore] at h
    split_ifs at h
    · exact State.orFault_keeps_fb h fun g hg => by cases hg; rfl
    · cases h; rfl
  | printInt num =>
    simp only [exec, execPrintInt, State.printText, hd] at h
    split_ifs at h
    · exact State.orFault_keeps_fb h fun text htext => drawText_ignore_keeps_fb htext
    · cases h; rfl
  | setPixel | getPixel | drawRect | drawChar | drawStr | drawInt | setCursor | setFontSize | setColor | clear | sync
  | begin => simp [Instr.op] at hi

/-- Settles O34: each command draws with `IGNORE`, which its drawing operation answers with the framebuffer it was
given. -/
theorem ignoreNeverMutates : Obligations.IgnoreNeverMutates := by
  intro s t i hi h
  obtain ⟨x, y, rfl⟩ | ⟨x, y, w, height, rfl⟩ | ⟨x, y, size, g, rfl⟩ | ⟨x, y, fbase, size, text, rfl⟩ |
    ⟨x, y, fbase, size, num, rfl⟩ | ⟨hcolor, hop⟩ := hi
  · rw [exec, execSetPixel, orFault_checkCol_three, directiveOfCode_colCode_three, writePixel_ignore] at h
    cases h; rfl
  · rw [exec, execDrawRect, orFault_checkCol_three, directiveOfCode_colCode_three, fillRect_ignore] at h
    cases h; rfl
  · rw [exec, execDrawChar, orFault_checkCol_three, directiveOfCode_colCode_three, drawGlyph_ignore] at h
    cases h; rfl
  · rw [exec, execDrawStr, orFault_checkCol_three, directiveOfCode_colCode_three] at h
    exact drawText_ignore_keeps_fb h
  · rw [exec, execDrawInt, orFault_checkCol_three, directiveOfCode_colCode_three] at h
    exact State.orFault_keeps_fb h fun text htext => drawText_ignore_keeps_fb htext
  · exact exec_print_ignore_keeps_fb hcolor hop h

end Sys2Proof.Machine
end

section
/-! SUPPORT. Proofs of the statements about rectangles (41_rectangle.md): the picture `DRAWRECT` paints, and the loops
of the write operator it stands for. -/

namespace Sys2Proof.Machine

/-- A legal `col` byte passes the check, and `DRAWRECT` completes with the rectangle fill (R142). -/
theorem exec_drawRect_ok (s : State) (x y w height : Half) {color : Byte} (hcol : color.toNat ≤ 3) :
    exec (.drawRect x y w height color) s = .next { s with
      fb := fillRect x.toInt y.toInt w.toInt height.toInt (directiveOfCode (colCode color)) s.fb
      pc := s.pc + 10 } := by
  rw [exec, execDrawRect, checkCol_ok hcol]
  rfl

/-- A rectangle with a side that is not positive has no cell (R143): its picture is the one of doing nothing. -/
theorem fillRect_empty {fb : Memory} (hwf : Memory.wf fb = true) {x y w height : Int} (hside : w ≤ 0 ∨ height ≤ 0)
    (d : Directive) : fillRect x y w height d fb = fb := by
  obtain ⟨hwf', hpaint⟩ := fillRect_spec hwf x y w height d
  have hnothing : Paints fb fb (rectMap x y w height d) :=
    (Paints.refl fb).of_eq fun px py _ => (rectMap_empty hside d px py).symm
  exact hpaint.unique hnothing hwf' hwf

/-- Settles O27: the fill paints its rectangle, and an empty rectangle leaves the framebuffer as it was. -/
theorem drawRectPaintsTheRectangle : Obligations.DrawRectPaintsTheRectangle := by
  intro s x y w height color hwf hcol
  obtain ⟨-, hpaint⟩ :=
    fillRect_spec hwf x.toInt y.toInt w.toInt height.toInt (directiveOfCode (colCode color))
  exact ⟨_, exec_drawRect_ok s x y w height hcol, hpaint, fun hside => fillRect_empty hwf hside _⟩

/-- Settles O28: on a framebuffer in canonical form the page-wise fill is the loops of the write operator. -/
theorem drawRectIsTheLoopOfWritePixel : Obligations.DrawRectIsTheLoopOfWritePixel := by
  intro s x y w height color hwf hcol
  rw [exec_drawRect_ok s x y w height hcol, fillRect_eq_loops hwf]
  rfl

end Sys2Proof.Machine
end

section
/-! SUPPORT. Proofs of the statements about glyphs (42_glyph.md): the cell colors, the picture `DRAWCHAR` paints, and the
bits of a glyph it reads. -/

namespace Sys2Proof.Machine

/-! ### Cells -/

/-- Settles O29: `INVERT` and `IGNORE` paint every cell alike, `SET` and `CLEAR` only the cells whose bit is set. -/
theorem cellColorTable : Obligations.CellColorTable := by
  intro bit d
  cases d with
  | set | clear => cases bit <;> rfl
  | invert => rfl
  | ignore => simp [cellColor_ignore]

/-- Row `i` of a glyph is its byte `g_i` (R150). -/
theorem glyphBytes_getElem? (g : Glyph) {i : Nat} (hi : i < 8) : (glyphBytes g)[i]? = some (glyphRow g i) := by
  interval_cases i <;> rfl

/-- The source bit of a column that survives the crop lies in the low six bits of its row (R151). -/
theorem glyphBit_crop (g : Glyph) (i k : Nat) :
    glyphBit g i (H_OFF + k) = ((glyphRow g i).extractLsb' 0 6).getLsbD (7 - (H_OFF + k)) := by
  have hlow : 7 - (H_OFF + k) < 6 := by simp only [H_OFF]; omega
  simp [glyphBit, hlow]

/-! ### `DRAWCHAR` -/

/-- A legal `col` byte passes the check, and `DRAWCHAR` completes with the glyph (R157). -/
theorem exec_drawChar_ok (s : State) (x y size : Half) (g : Glyph) {color : Byte} (hcol : color.toNat ≤ 3) :
    exec (.drawChar x y size color g) s = .next { s with
      fb := drawGlyph x.toInt y.toInt g size.toInt (directiveOfCode (colCode color)) s.fb
      pc := s.pc + 16 } := by
  rw [exec, execDrawChar, checkCol_ok hcol]
  rfl

/-- A size that is not positive has no cell (R158): the picture is the one of doing nothing. -/
theorem drawGlyph_nonpos {fb : Memory} (hwf : Memory.wf fb = true) {size : Int} (hsize : size ≤ 0) (x y : Int)
    (g : Glyph) (d : Directive) : drawGlyph x y g size d fb = fb := by
  obtain ⟨hwf', hpaint⟩ := drawGlyph_spec hwf x y g size d
  have hnothing : Paints fb fb (glyphMap x y g size d) :=
    (Paints.refl fb).of_eq fun px py _ => (glyphMap_nonpos hsize x y g d px py).symm
  exact hpaint.unique hnothing hwf' hwf

/-- Settles O30: the rasterizer paints the glyph's picture, which is empty for a size that is not positive. -/
theorem drawCharPaintsTheGlyph : Obligations.DrawCharPaintsTheGlyph := by
  refine ⟨fun g i j hi _ => ⟨glyphBytes_getElem? g hi, rfl⟩, fun s x y size color g hwf hcol => ?_⟩
  obtain ⟨-, hpaint⟩ := drawGlyph_spec hwf x.toInt y.toInt g size.toInt (directiveOfCode (colCode color))
  exact ⟨_, exec_drawChar_ok s x y size g hcol, hpaint, fun hsize => drawGlyph_nonpos hwf hsize _ _ _ _⟩

/-- With `INVERT` the picture of a glyph is its whole box, since the cell color does not read the bit (R153). -/
theorem glyphMap_invert (x y : Int) (g : Glyph) (size : Int) :
    glyphMap x y g size .invert = rectMap x y (6 * size) (7 * size) .invert := rfl

/-- Settles O32: the `col` byte 2 is `INVERT`, and with it the picture of the glyph is its box. -/
theorem invertGlyphTogglesTheWholeBox : Obligations.InvertGlyphTogglesTheWholeBox := by
  intro s x y size g hwf _
  have hinvert : directiveOfCode (colCode 2) = .invert := (directiveOfCode_colCode_eq_invert_iff (by decide)).mpr rfl
  obtain ⟨-, hpaint⟩ := drawGlyph_spec hwf x.toInt y.toInt g size.toInt (directiveOfCode (colCode 2))
  refine ⟨_, exec_drawChar_ok s x y size g (by decide), ?_⟩
  rw [← glyphMap_invert x.toInt y.toInt g, ← hinvert]
  exact hpaint

/-! ### The bits that are read -/

/-- A row is drawn from the low six bits of its byte alone (R151). -/
theorem drawGlyphRow_congr {g g' : Glyph} {i : Nat}
    (hrow : (glyphRow g i).extractLsb' 0 6 = (glyphRow g' i).extractLsb' 0 6) (x y size : Int) (d : Directive)
    (fb : Memory) : drawGlyphRow x y g size d i fb = drawGlyphRow x y g' size d i fb := by
  simp only [drawGlyphRow, glyphBit_crop, hrow]

/-- A glyph is drawn from the low six bits of its rows 1 to 7 alone (R151). -/
theorem drawGlyph_congr {g g' : Glyph}
    (hrows : ∀ i : Nat, 1 ≤ i → i ≤ 7 → (glyphRow g i).extractLsb' 0 6 = (glyphRow g' i).extractLsb' 0 6)
    (x y size : Int) (d : Directive) (fb : Memory) : drawGlyph x y g size d fb = drawGlyph x y g' size d fb := by
  refine List.foldl_ext _ _ _ fun fb k hk => drawGlyphRow_congr (hrows _ ?_ ?_) x y size d fb
  · exact Nat.le_add_right 1 k
  · have hk7 : k < 7 := List.mem_range.mp hk
    simp only [V_OFF]; omega

/-- Settles O31: the two glyphs differ only in bits the rasterizer does not read. -/
theorem glyphPaddingHasNoEffect : Obligations.GlyphPaddingHasNoEffect := by
  intro s x y size color g g' hrows
  simp only [exec, execDrawChar, drawGlyph_congr hrows]

end Sys2Proof.Machine
end

section
/-! SUPPORT. Proofs of the statements about text layout (43_layout.md): the glyph fetch, the decimal text and the
formatter's capacity, the two direct text commands, the setters, and the print family. -/

namespace Sys2Proof.Machine

/-! ### Fetching a glyph (R166) -/

/-- Inside the font, `fontByte` is the font's byte. -/
theorem font_getElem?_eq {cfg : Config} {a : Nat} (h : a < cfg.fontBytes) : cfg.font[a]? = some (fontByte cfg a) := by
  have hlen : a < cfg.font.length := h
  simp [fontByte, hlen]

/-- The rows of a fetched glyph are eight consecutive font bytes, the top row first. -/
theorem glyphRow_glyphAt (cfg : Config) (base : Nat) (c : Byte) {i : Nat} (hi : i < 8) :
    glyphRow (glyphAt cfg base c) i = fontByte cfg (base + 8 * c.toNat + i) := by
  interval_cases i <;> rfl

/-- Settles O35: the bounds check is on the last of the eight bytes, so all of them are bytes of the font. -/
theorem fetchGlyphReadsEightFontBytes : Obligations.FetchGlyphReadsEightFontBytes := by
  intro cfg base c
  refine ⟨fun hin => ⟨fetchGlyph_ok (glyphInFont_iff.mpr hin), fun i hi => ?_⟩,
    fun hout => fetchGlyph_error (glyphInFont_false_iff.mpr hout)⟩
  rw [glyphRow_glyphAt cfg base c hi]
  exact font_getElem?_eq (by omega)

/-! ### The decimal text (R170, R172) -/

/-- The digits of a number: digit codes, the first not '0', with the value of the number. -/
theorem digits_spec (n : Nat) :
    (∀ c ∈ digits n, 0x30 ≤ c.toNat ∧ c.toNat ≤ 0x39) ∧
      (0 < n → ∃ c cs, digits n = c :: cs ∧ c ≠ 0x30) ∧
      (digits n).foldl (fun v c => 10 * v + ((c.toNat : Int) - 0x30)) 0 = n := by
  obtain ⟨ds, hds, hcodes, hfirst, -, hvalue, -⟩ := digitsOnto_spec n n [] (Nat.le_refl n)
  rw [digits, hds, List.append_nil]
  exact ⟨hcodes, hfirst, hvalue⟩

/-- A number has more than `k` digits exactly when it is at least `10 ^ k`. -/
theorem lt_length_digits_iff (n k : Nat) : k < (digits n).length ↔ 10 ^ k ≤ n := by
  obtain ⟨ds, hds, -, -, -, -, hlength⟩ := digitsOnto_spec n n [] (Nat.le_refl n)
  rw [digits, hds, List.append_nil]
  exact (hlength k).symm

theorem decimal_of_pos {n : Int} (h : 0 < n) : decimal n = digits n.toNat := by
  rw [decimal, if_neg (by omega), if_pos h]

theorem decimal_of_neg {n : Int} (h : n < 0) : decimal n = 0x2D :: digits (-n).toNat := by
  rw [decimal, if_neg (by omega), if_neg (by omega)]

/-- Settles O38: a positive number's text is its digits, and a negative number's the sign before those of its
magnitude. -/
theorem decimalTextIsCanonical : Obligations.DecimalTextIsCanonical := by
  refine ⟨rfl, fun n hpos => ?_, fun n hneg => ?_⟩
  · obtain ⟨hcodes, hfirst, hvalue⟩ := digits_spec n.toNat
    rw [decimal_of_pos hpos]
    exact ⟨hcodes, hfirst (by omega), hvalue.trans (Int.toNat_of_nonneg (by omega))⟩
  · rw [decimal_of_neg hneg, decimal_of_pos (by omega)]

/-! ### The formatter's capacity (R171) -/

/-- When a decimal text is longer than `k + 1` characters: the sign takes the room of one digit. -/
theorem lt_length_decimal_iff (n : Int) (k : Nat) :
    k + 1 < (decimal n).length ↔ 10 ^ (k + 1) ≤ n ∨ n ≤ -10 ^ k := by
  have hk : (0 : Int) < 10 ^ k := by positivity
  have hk1 : (0 : Int) < 10 ^ (k + 1) := by positivity
  obtain hneg | rfl | hpos := lt_trichotomy n 0
  · have hdigits := lt_length_digits_iff (-n).toNat k
    rw [Int.le_toNat (by omega)] at hdigits
    push_cast at hdigits
    rw [decimal_of_neg hneg, List.length_cons]
    omega
  · rw [show decimal 0 = [0x30] from rfl, List.length_singleton]
    omega
  · have hdigits := lt_length_digits_iff n.toNat (k + 1)
    rw [Int.le_toNat (by omega)] at hdigits
    push_cast at hdigits
    rw [decimal_of_pos hpos]
    omega

/-- `formatInt` raises exactly when the text and its terminator exceed the capacity. -/
theorem formatInt_error_iff (cfg : Config) (n : Int) :
    (∃ e, formatInt cfg n = .error e) ↔ cfg.intBufCap < (decimal n).length + 1 := by
  constructor
  · rintro ⟨e, he⟩
    by_contra hfits
    rw [formatInt_ok (by omega)] at he
    cases he
  · exact fun hlong => ⟨_, formatInt_error hlong⟩

/-- Settles O39: a 32-bit number has at most ten digits, so only those with ten digits and a sign exceed ten characters,
and none exceeds eleven. -/
theorem formatterCapacityRange : Obligations.FormatterCapacityRange := by
  intro cfg num
  have hlow : -2 ^ 31 ≤ num.toInt := BitVec.le_toInt num
  have hhigh : num.toInt < 2 ^ 31 := BitVec.toInt_lt
  refine ⟨rfl, fun hcap => ?_, fun hcap => formatInt_ok ?_⟩
  · have hlength := lt_length_decimal_iff num.toInt 9
    rw [formatInt_error_iff, hcap]
    omega
  · have hlength := lt_length_decimal_iff num.toInt 10
    omega

/-! ### What a text command does after its checks -/

/-- Drawing a text whose glyphs all lie in the font completes, paints the text's picture, and changes nothing else but
`PC` (R167). -/
theorem orFault_drawText_paints {s : State} {cfg : Config} {text : List Byte} {base : Nat}
    (hwf : Memory.wf s.fb = true) (hfont : ∀ c ∈ text, base + 8 * c.toNat + 7 < cfg.fontBytes) (x y size : Int)
    (d : Directive) (len : Nat) :
    ∃ fb', s.orFault (drawText cfg x y text base size d s.fb) (fun fb => .next ((s.setFb fb).advance len)) =
        .next { s with fb := fb', pc := s.pc + len } ∧
      Paints s.fb fb' (textMap cfg x y text base size d) := by
  have hdraw := drawText_ok (fun c hc => glyphInFont_iff.mpr (hfont c hc)) x y size d s.fb
  rw [hdraw]
  exact ⟨_, rfl, (drawText_spec hwf hdraw).2⟩

/-! ### The direct commands (R169, R173) -/

/-- A legal `col` byte passes the check of `DRAWSTR`. -/
theorem exec_drawStr_legal (s : State) (x y fbase size : Half) {color : Byte} (hcol : color.toNat ≤ 3)
    (text : List Byte) :
    exec (.drawStr x y fbase size color text) s =
      s.orFault (drawText s.cfg x.toInt y.toInt text fbase.toNat size.toInt (directiveOfCode (colCode color)) s.fb)
        fun fb => .next ((s.setFb fb).advance (11 + text.length)) := by
  rw [exec, execDrawStr, checkCol_ok hcol, State.orFault_ok]

/-- A legal `col` byte passes the check of `DRAWINT`. -/
theorem exec_drawInt_legal (s : State) (x y fbase size : Half) {color : Byte} (hcol : color.toNat ≤ 3)
    (num : Word32) :
    exec (.drawInt x y fbase size color num) s =
      s.orFault (formatInt s.cfg num.toInt) fun text =>
        s.orFault (drawText s.cfg x.toInt y.toInt text fbase.toNat size.toInt (directiveOfCode (colCode color)) s.fb)
          fun fb => .next ((s.setFb fb).advance 14) := by
  rw [exec, execDrawInt, checkCol_ok hcol, State.orFault_ok]

/-- Settles O36: after the `col` check, `DRAWSTR` draws its text. -/
theorem drawStrPaintsTheText : Obligations.DrawStrPaintsTheText := by
  intro s x y fbase size color text hwf hcol hfont
  rw [exec_drawStr_legal s x y fbase size hcol]
  exact orFault_drawText_paints hwf hfont _ _ _ _ _

/-- Settles O37: after the `col` check and the formatter, `DRAWINT` draws the decimal text. -/
theorem drawIntPaintsTheDecimalText : Obligations.DrawIntPaintsTheDecimalText := by
  intro s x y fbase size color num hwf hcol hfits hfont
  rw [exec_drawInt_legal s x y fbase size hcol, formatInt_ok hfits]
  exact orFault_drawText_paints hwf hfont _ _ _ _ _

/-! ### The setters (R176 to R178) -/

/-- Settles O40: the setter checks neither coordinate. -/
theorem setCursorWritesTheCursor : Obligations.SetCursorWritesTheCursor :=
  fun _ _ _ => ⟨rfl, rfl⟩

/-- Settles O41: the setter does not check the size. -/
theorem setFontSizeWritesTheSize : Obligations.SetFontSizeWritesTheSize :=
  fun _ _ => ⟨rfl, rfl⟩

/-- The code in a `col` byte is its value modulo 4 (R85). -/
theorem colCode_eq_ofNat (v : Byte) : colCode v = BitVec.ofNat 2 v.toNat := by
  apply BitVec.eq_of_toNat_eq
  simp [colCode]

/-- Settles O42: a legal `col` byte passes the check, and the setter writes its code. -/
theorem setColorWritesTheCode : Obligations.SetColorWritesTheCode := by
  intro s color hcol
  rw [exec, execSetColor, checkCol_ok hcol, State.orFault_ok, colCode_eq_ofNat]
  rfl

/-! ### The print family with a font (R175, R180 to R182) -/

theorem exec_printStr_font {s : State} (hfp : s.cfg.fontPresent = true) (text : List Byte) :
    exec (.printStr text) s =
      s.orFault (s.printText text) fun fb => .next ((s.setFb fb).advance (2 + text.length)) := by
  rw [exec, execPrintStr, if_pos hfp]

theorem exec_printChar_font {s : State} (hfp : s.cfg.fontPresent = true) (c : Byte) :
    exec (.printChar c) s =
      s.orFault (fetchGlyph s.cfg s.cfg.fontBase.toNat c) fun g => .next ((s.setFb
        (drawGlyph s.curX.toInt s.curY.toInt g s.fontSize.toInt (directiveOfCode s.color) s.fb)).advance 2) := by
  rw [exec, execPrintChar, if_pos hfp]

theorem exec_printInt_font {s : State} (hfp : s.cfg.fontPresent = true) (num : Word32) :
    exec (.printInt num) s =
      s.orFault (formatInt s.cfg num.toInt) fun text =>
        s.orFault (s.printText text) fun fb => .next ((s.setFb fb).advance 5) := by
  rw [exec, execPrintInt, if_pos hfp]

/-- Settles O44: with a font, `PRINTSTR` draws its text at the cursor. -/
theorem printStrPaintsAtTheCursor : Obligations.PrintStrPaintsAtTheCursor := by
  intro s text hwf hfp hfont
  rw [exec_printStr_font hfp]
  exact orFault_drawText_paints hwf hfont _ _ _ _ _

/-- Settles O45: with a font, `PRINTCHAR` fetches its glyph and draws it at the cursor. -/
theorem printCharPaintsAtTheCursor : Obligations.PrintCharPaintsAtTheCursor := by
  intro s c hwf hfp hfont
  have hfetch := fetchGlyph_ok (glyphInFont_iff.mpr hfont)
  obtain ⟨-, hpaint⟩ := drawGlyph_spec hwf s.curX.toInt s.curY.toInt (glyphAt s.cfg s.cfg.fontBase.toNat c)
    s.fontSize.toInt (directiveOfCode s.color)
  refine ⟨_, _, hfetch, ?_, hpaint⟩
  rw [exec_printChar_font hfp, hfetch]
  rfl

/-- Settles O46: with a font, `PRINTINT` formats its number and draws the text at the cursor. -/
theorem printIntPaintsAtTheCursor : Obligations.PrintIntPaintsAtTheCursor := by
  intro s num hwf hfp hfits hfont
  rw [exec_printInt_font hfp, formatInt_ok hfits]
  exact orFault_drawText_paints hwf hfont _ _ _ _ _

/-! ### The print family without a font (R175) -/

/-- Settles O47: without a font each print command only advances `PC`. -/
theorem printWithoutFontDoesNothing : Obligations.PrintWithoutFontDoesNothing := by
  intro s hfp
  have hno : ¬ s.cfg.fontPresent = true := by simp [hfp]
  refine ⟨fun text => ?_, fun c => ?_, fun num => ?_⟩
  · rw [exec, execPrintStr, if_neg hno]; rfl
  · rw [exec, execPrintChar, if_neg hno]; rfl
  · rw [exec, execPrintInt, if_neg hno]; rfl

/-! ### A print command and its direct command (R175) -/

/-- A code written as a `col` byte is legal. -/
theorem setWidth_color_legal (code : BitVec 2) : (code.setWidth 8).toNat ≤ 3 := by
  revert code; decide

/-- A code written as a `col` byte is read back. -/
theorem colCode_setWidth (code : BitVec 2) : colCode (code.setWidth 8) = code := by
  revert code; decide

/-- Two commands that write the framebuffer one check answers, and differ in length alone, leave the same framebuffer
and fault registers. -/
theorem orFault_setFb_agree {s t : State} {r : Except FaultCause Memory} {len : Nat} (len' : Nat)
    (h : s.orFault r (fun fb => .next ((s.setFb fb).advance len)) = .next t) :
    ∃ u, s.orFault r (fun fb => .next ((s.setFb fb).advance len')) = .next u ∧
      u.fb = t.fb ∧ u.fault = t.fault ∧ u.faultPc = t.faultPc := by
  obtain ⟨c, rfl, rfl⟩ | ⟨fb, rfl, hnext⟩ := State.orFault_next h
  · exact ⟨_, rfl, rfl, rfl, rfl⟩
  · cases hnext
    exact ⟨_, rfl, rfl, rfl, rfl⟩

/-- `DRAWSTR` with the cursor registers and the configured table as operands draws what `printText` draws. -/
theorem exec_drawStr_cursor (s : State) (text : List Byte) :
    exec (.drawStr s.curX s.curY s.cfg.fontBase s.fontSize (s.color.setWidth 8) text) s =
      s.orFault (s.printText text) fun fb => .next ((s.setFb fb).advance (11 + text.length)) := by
  rw [exec_drawStr_legal _ _ _ _ _ (setWidth_color_legal s.color), colCode_setWidth]
  rfl

/-- `DRAWINT` with the cursor registers and the configured table as operands draws what `printText` draws. -/
theorem exec_drawInt_cursor (s : State) (num : Word32) :
    exec (.drawInt s.curX s.curY s.cfg.fontBase s.fontSize (s.color.setWidth 8) num) s =
      s.orFault (formatInt s.cfg num.toInt) fun text =>
        s.orFault (s.printText text) fun fb => .next ((s.setFb fb).advance 14) := by
  rw [exec_drawInt_legal _ _ _ _ _ (setWidth_color_legal s.color), colCode_setWidth]
  rfl

/-- Settles O48: with the cursor registers as operands, the direct command takes the checks of the print command and
draws the same; the two differ in length alone. -/
theorem printRoutesToTheDirectCommands : Obligations.PrintRoutesToTheDirectCommands := by
  intro s hfp
  refine ⟨fun text t h => ?_, fun num t h => ?_, fun c g t hfetch h => ?_⟩
  · rw [exec_drawStr_cursor] at h
    rw [exec_printStr_font hfp]
    exact orFault_setFb_agree _ h
  · rw [exec_drawInt_cursor, ← State.orFault_bind] at h
    rw [exec_printInt_font hfp, ← State.orFault_bind]
    exact orFault_setFb_agree _ h
  · rw [exec_drawChar_ok _ _ _ _ _ (setWidth_color_legal s.color), colCode_setWidth] at h
    cases h
    rw [exec_printChar_font hfp, hfetch]
    exact ⟨_, rfl, rfl, rfl, rfl⟩

end Sys2Proof.Machine
end

section
/-! SUPPORT. Proofs of the statements about the frame store and the transport (44_store_sync.md): `CLEAR`, `SYNC`,
`BEGIN`. -/

namespace Sys2Proof.Machine

/-! ### The zero fill (R200) -/

/-- Settles O52: the zero fill of a framebuffer in canonical form is the empty memory. -/
theorem clearZeroesTheFramebuffer : Obligations.ClearZeroesTheFramebuffer := by
  refine ⟨rfl, fun s hwf => ⟨Memory.zeroFill s.fb, rfl, fun a => ?_⟩⟩
  rw [Memory.zeroFill_eq hwf, Memory.read_nil]

/-! ### The sync (R203 to R206) -/

/-- `SYNC` appends its data transactions and the trailing command, and reads no acknowledge. -/
theorem exec_sync (s : State) :
    exec .sync s = .next { s with
      tx := s.tx ++ (List.range SYNC_CHUNKS).map (fun c => (⟨s.cfg.devAddr, syncPayload s.fb c⟩ : Transaction)) ++
        [⟨s.cfg.devAddr, trailingPayload⟩]
      pc := s.pc + 1 } := by
  rw [exec, execSync, pushChunks]
  rfl

/-- Settles O53: the payload of each data transaction is the marker and sixteen single reads of `FB`. -/
theorem syncSendsTheWholeFrame : Obligations.SyncSendsTheWholeFrame := by
  intro s hwf
  rw [exec_sync, funext (syncPayload_eq hwf)]
  rfl

/-! ### The bring-up (R207 to R210) -/

/-- An answer the launch gives is the one the transport makes (R62, log 4). -/
theorem State.nextAck_of_listed {s : State} {a : Bool} (h : s.acks[s.tx.length]? = some a) : s.nextAck = a := by
  rw [State.nextAck, List.getD_eq_getElem?_getD, h, Option.getD_some]

/-- Settles O54: the acknowledge is `nextAck`, and the sixteen bring-up bytes, each after its control byte, are the
payload. -/
theorem beginSendsTheBringUp : Obligations.BeginSendsTheBringUp :=
  fun s => ⟨s.nextAck, fun _ h => State.nextAck_of_listed h, rfl⟩

end Sys2Proof.Machine
end

section
/-! SUPPORT. Proofs of the statements about faults (60_exceptions.md R221 to R230) and about a stream that ends inside
a command (R242). -/

namespace Sys2Proof

/-! ### Cutting operands off the head of the bytes

Any bytes are operands of a fixed length, once there are enough of them (R84). -/

theorem exists_byte_append {n : Nat} {bs : List Byte} (h : n + 1 ≤ bs.length) :
    ∃ (b : Byte) (rest : List Byte), bs = [b] ++ rest ∧ n ≤ rest.length := by
  cases bs with
  | nil => simp at h
  | cons b rest => exact ⟨b, rest, rfl, by simpa using h⟩

theorem exists_bytes16_append {n : Nat} {bs : List Byte} (h : n + 2 ≤ bs.length) :
    ∃ (v : Half) (rest : List Byte), bs = bytes16 v ++ rest ∧ n ≤ rest.length := by
  obtain ⟨b0, bs, rfl, h1⟩ := exists_byte_append h
  obtain ⟨b1, bs, rfl, h2⟩ := exists_byte_append h1
  exact ⟨le16 b0 b1, bs, by simp [bytes16_le16], h2⟩

theorem exists_bytes32_append {n : Nat} {bs : List Byte} (h : n + 4 ≤ bs.length) :
    ∃ (v : Word32) (rest : List Byte), bs = bytes32 v ++ rest ∧ n ≤ rest.length := by
  obtain ⟨b0, bs, rfl, h1⟩ := exists_byte_append h
  obtain ⟨b1, bs, rfl, h2⟩ := exists_byte_append h1
  obtain ⟨b2, bs, rfl, h3⟩ := exists_byte_append h2
  obtain ⟨b3, bs, rfl, h4⟩ := exists_byte_append h3
  exact ⟨le32 b0 b1 b2 b3, bs, by simp [bytes32_le32], h4⟩

theorem exists_glyphBytes_append {n : Nat} {bs : List Byte} (h : n + 8 ≤ bs.length) :
    ∃ (g : Glyph) (rest : List Byte), bs = glyphBytes g ++ rest ∧ n ≤ rest.length := by
  obtain ⟨g0, bs, rfl, h1⟩ := exists_byte_append h
  obtain ⟨g1, bs, rfl, h2⟩ := exists_byte_append h1
  obtain ⟨g2, bs, rfl, h3⟩ := exists_byte_append h2
  obtain ⟨g3, bs, rfl, h4⟩ := exists_byte_append h3
  obtain ⟨g4, bs, rfl, h5⟩ := exists_byte_append h4
  obtain ⟨g5, bs, rfl, h6⟩ := exists_byte_append h5
  obtain ⟨g6, bs, rfl, h7⟩ := exists_byte_append h6
  obtain ⟨g7, bs, rfl, h8⟩ := exists_byte_append h7
  exact ⟨⟨g0, g1, g2, g3, g4, g5, g6, g7⟩, bs, rfl, h8⟩

/-- The nine bytes before the text of `DRAWSTR` (R98). -/
theorem exists_strHeader_append {n : Nat} {bs : List Byte} (h : n + 9 ≤ bs.length) :
    ∃ (x y fbase size : Half) (color : Byte) (rest : List Byte),
      bs = bytes16 x ++ bytes16 y ++ bytes16 fbase ++ bytes16 size ++ [color] ++ rest ∧ n ≤ rest.length := by
  obtain ⟨x, bs, rfl, h1⟩ := exists_bytes16_append h
  obtain ⟨y, bs, rfl, h2⟩ := exists_bytes16_append h1
  obtain ⟨fbase, bs, rfl, h3⟩ := exists_bytes16_append h2
  obtain ⟨size, bs, rfl, h4⟩ := exists_bytes16_append h3
  obtain ⟨color, bs, rfl, h5⟩ := exists_byte_append h4
  exact ⟨x, y, fbase, size, color, bs, by simp, h5⟩

/-- The nine bytes before a text, and nothing after them. -/
theorem exists_strHeader {bs : List Byte} (h : bs.length = 9) :
    ∃ (x y fbase size : Half) (color : Byte),
      bs = bytes16 x ++ bytes16 y ++ bytes16 fbase ++ bytes16 size ++ [color] := by
  obtain ⟨x, y, fbase, size, color, rest, rfl, -⟩ := exists_strHeader_append (n := 0) h.ge
  have hrest : rest = [] := by
    rw [List.length_append] at h
    exact List.length_eq_zero_iff.mp (Nat.add_left_cancel h)
  exact ⟨x, y, fbase, size, color, by rw [hrest, List.append_nil]⟩

/-- Fifteen bytes or more begin with the operands of a command of any opcode without a text. -/
theorem exists_operandBytes_append (textMax : Nat) {op : Op} (hstr : op ≠ .drawStr) (hprint : op ≠ .printStr)
    {bs : List Byte} (h : 15 ≤ bs.length) :
    ∃ (i : Instr) (rest : List Byte), i.op = op ∧ i.wellFormed textMax = true ∧ bs = i.operandBytes ++ rest := by
  cases op with
  | setPixel =>
    obtain ⟨x, bs, rfl, h1⟩ := exists_bytes16_append h
    obtain ⟨y, bs, rfl, h2⟩ := exists_bytes16_append h1
    obtain ⟨color, bs, rfl, -⟩ := exists_byte_append h2
    exact ⟨.setPixel x y color, bs, rfl, rfl, by simp [Instr.operandBytes]⟩
  | getPixel =>
    obtain ⟨x, bs, rfl, h1⟩ := exists_bytes16_append h
    obtain ⟨y, bs, rfl, -⟩ := exists_bytes16_append h1
    exact ⟨.getPixel x y, bs, rfl, rfl, by simp [Instr.operandBytes]⟩
  | drawRect =>
    obtain ⟨x, bs, rfl, h1⟩ := exists_bytes16_append h
    obtain ⟨y, bs, rfl, h2⟩ := exists_bytes16_append h1
    obtain ⟨width, bs, rfl, h3⟩ := exists_bytes16_append h2
    obtain ⟨height, bs, rfl, h4⟩ := exists_bytes16_append h3
    obtain ⟨color, bs, rfl, -⟩ := exists_byte_append h4
    exact ⟨.drawRect x y width height color, bs, rfl, rfl, by simp [Instr.operandBytes]⟩
  | drawChar =>
    obtain ⟨x, bs, rfl, h1⟩ := exists_bytes16_append h
    obtain ⟨y, bs, rfl, h2⟩ := exists_bytes16_append h1
    obtain ⟨size, bs, rfl, h3⟩ := exists_bytes16_append h2
    obtain ⟨color, bs, rfl, h4⟩ := exists_byte_append h3
    obtain ⟨glyph, bs, rfl, -⟩ := exists_glyphBytes_append h4
    exact ⟨.drawChar x y size color glyph, bs, rfl, rfl, by simp [Instr.operandBytes]⟩
  | drawStr => exact absurd rfl hstr
  | drawInt =>
    obtain ⟨x, y, fbase, size, color, bs, rfl, h1⟩ := exists_strHeader_append h
    obtain ⟨num, bs, rfl, -⟩ := exists_bytes32_append h1
    exact ⟨.drawInt x y fbase size color num, bs, rfl, rfl, by simp [Instr.operandBytes]⟩
  | setCursor =>
    obtain ⟨x, bs, rfl, h1⟩ := exists_bytes16_append h
    obtain ⟨y, bs, rfl, -⟩ := exists_bytes16_append h1
    exact ⟨.setCursor x y, bs, rfl, rfl, by simp [Instr.operandBytes]⟩
  | setFontSize =>
    obtain ⟨size, bs, rfl, -⟩ := exists_bytes16_append h
    exact ⟨.setFontSize size, bs, rfl, rfl, rfl⟩
  | setColor =>
    obtain ⟨color, bs, rfl, -⟩ := exists_byte_append h
    exact ⟨.setColor color, bs, rfl, rfl, rfl⟩
  | printStr => exact absurd rfl hprint
  | printChar =>
    obtain ⟨c, bs, rfl, -⟩ := exists_byte_append h
    exact ⟨.printChar c, bs, rfl, rfl, rfl⟩
  | printInt =>
    obtain ⟨num, bs, rfl, -⟩ := exists_bytes32_append h
    exact ⟨.printInt num, bs, rfl, rfl, rfl⟩
  | clear => exact ⟨.clear, bs, rfl, rfl, rfl⟩
  | sync => exact ⟨.sync, bs, rfl, rfl, rfl⟩
  | begin => exact ⟨.begin, bs, rfl, rfl, rfl⟩

/-! ### Texts that do not end (R86, R107) -/

/-- More bytes after an unterminated text do not terminate it. -/
theorem scanText_unterminated_append (more : List Byte) : ∀ {fuel : Nat} {bs : List Byte},
    scanText fuel bs = .unterminated → scanText fuel (bs ++ more) = .unterminated := by
  intro fuel
  induction fuel with
  | zero => intro bs _; rfl
  | succ n ih =>
    intro bs h
    cases bs with
    | nil => cases h
    | cons b bs =>
      rw [List.cons_append]
      rw [scanText] at h ⊢
      split_ifs at h ⊢
      cases hscan : scanText n bs with
      | found text rest => rw [hscan] at h; cases h
      | unterminated => rw [ih hscan]
      | truncated => rw [hscan] at h; cases h

theorem decodeText_unterminated {textMax : Nat} {text : List Byte} (hlen : text.length = textMax + 1)
    (hne : ∀ b ∈ text, b ≠ 0) (rest : List Byte) (k : List Byte → Instr) :
    decodeText textMax (text ++ rest) k = .textUnterminated := by
  rw [decodeText, ← hlen, scanText_unterminated hne]

/-- What the decoder can answer at a text field; what it answers to an unterminated text stays, whatever follows. -/
theorem decodeText_cases (textMax : Nat) (bs : List Byte) (k : List Byte → Instr) :
    (∃ i rest, decodeText textMax bs k = .instr i rest) ∨ decodeText textMax bs k = .truncated ∨
      ∀ more, decodeText textMax (bs ++ more) k = .textUnterminated := by
  rw [decodeText]
  cases hscan : scanText (textMax + 1) bs with
  | found text rest => exact .inl ⟨_, _, rfl⟩
  | unterminated => exact .inr (.inr fun more => by rw [decodeText, scanText_unterminated_append more hscan])
  | truncated => exact .inr (.inl rfl)

/-- Where the stream ends inside a text field, the bytes up to the end are a text that only lacks its terminator. -/
theorem decodeText_truncated {textMax : Nat} {bs : List Byte} {k : List Byte → Instr}
    (h : decodeText textMax bs k = .truncated) : textWellFormed textMax bs = true := by
  rw [decodeText] at h
  cases hscan : scanText (textMax + 1) bs with
  | found text rest => rw [hscan] at h; cases h
  | unterminated => rw [hscan] at h; cases h
  | truncated =>
    obtain ⟨hlen, hne⟩ := scanText_truncated_iff.mp hscan
    simpa [textWellFormed] using And.intro (Nat.le_of_lt_succ hlen) hne

/-- `DRAWSTR` reads its text after nine bytes, whatever they are (R98). -/
theorem decodeSTR_header (textMax : Nat) (x y fbase size : Half) (color : Byte) (bs : List Byte) :
    decodeSTR textMax (bytes16 x ++ bytes16 y ++ bytes16 fbase ++ bytes16 size ++ [color] ++ bs) =
      decodeText textMax bs (.drawStr x y fbase size color) := by
  simp [decodeSTR, bytes16, le16_bytes]

/-! ### A command that is cut off -/

/-- What the operand decoder can answer; what it answers to an unterminated text stays, whatever follows. -/
theorem decodeOperands_cases (textMax : Nat) (op : Op) (bs : List Byte) :
    (∃ i rest, decodeOperands textMax op bs = .instr i rest) ∨ decodeOperands textMax op bs = .truncated ∨
      ∀ more, decodeOperands textMax op (bs ++ more) = .textUnterminated := by
  cases op with
  | drawStr =>
    simp only [decodeOperands, decodeSTR]
    split
    · exact decodeText_cases textMax _ _
    · exact .inr (.inl rfl)
  | printStr => exact decodeText_cases textMax bs _
  | setPixel | getPixel | drawRect | drawChar | drawInt | setCursor | setFontSize | setColor | printChar | printInt =>
    simp only [decodeOperands, decodeXYC, decodeXY, decodeRECT, decodeGLYPH, decodeNUM, decodeH, decodeByte, decodeW]
    split
    · exact .inl ⟨_, _, rfl⟩
    · exact .inr (.inl rfl)
  | clear | sync | begin => exact .inl ⟨_, _, rfl⟩

/-- Bytes that lack the end of a command's operands are truncated: a command read from them would be followed by the
missing bytes in the operands, and an unterminated text would be one in the operands too. -/
theorem decodeOperands_of_missing {textMax : Nat} {i : Instr} {bs missing : List Byte}
    (hwf : i.wellFormed textMax = true) (hmissing : missing ≠ []) (h : bs ++ missing = i.operandBytes) :
    decodeOperands textMax i.op bs = .truncated := by
  have hwhole : decodeOperands textMax i.op (bs ++ missing) = .instr i [] := by
    simpa [h] using decodeOperands_operandBytes hwf []
  obtain ⟨j, rest, hj⟩ | htrunc | hunterminated := decodeOperands_cases textMax i.op bs
  · obtain ⟨hop, rfl, hjwf⟩ := decodeOperands_instr hj
    rw [← hop, List.append_assoc, decodeOperands_operandBytes hjwf] at hwhole
    simp [hmissing] at hwhole
  · exact htrunc
  · rw [hunterminated] at hwhole
    cases hwhole

/-- Truncated operands that are the operands of a command, once enough bytes follow, are cut off inside them. -/
theorem exists_missing_of_append {textMax : Nat} {i : Instr} {bs pad rest : List Byte}
    (hwf : i.wellFormed textMax = true) (htrunc : decodeOperands textMax i.op bs = .truncated)
    (h : bs ++ pad = i.operandBytes ++ rest) : ∃ missing, missing ≠ [] ∧ bs ++ missing = i.operandBytes := by
  have hwhole : ∀ more, bs ≠ i.operandBytes ++ more := by
    rintro more rfl
    rw [decodeOperands_operandBytes hwf] at htrunc
    cases htrunc
  obtain ⟨missing, hoperands, -⟩ | ⟨more, hbs, -⟩ := List.append_eq_append_iff.mp h
  · refine ⟨missing, ?_, hoperands.symm⟩
    rintro rfl
    exact hwhole [] (by simp [hoperands])
  · exact absurd hbs (hwhole more)

/-- Truncated operands of `DRAWSTR` end inside its first nine bytes or inside its text. -/
theorem exists_missing_of_truncated_drawStr {textMax : Nat} {bs : List Byte}
    (h : decodeSTR textMax bs = .truncated) : ∃ (i : Instr) (missing : List Byte),
      i.op = .drawStr ∧ i.wellFormed textMax = true ∧ missing ≠ [] ∧ bs ++ missing = i.operandBytes := by
  obtain hlen | hlen := Nat.lt_or_ge bs.length 9
  · obtain ⟨x, y, fbase, size, color, hheader⟩ := exists_strHeader
      (bs := bs ++ List.replicate (9 - bs.length) 0) (by simp; omega)
    refine ⟨.drawStr x y fbase size color [], List.replicate (9 - bs.length) 0 ++ [0], rfl, rfl, by simp, ?_⟩
    rw [← List.append_assoc, hheader]
    rfl
  · obtain ⟨x, y, fbase, size, color, text, rfl, -⟩ := exists_strHeader_append (n := 0) hlen
    rw [decodeSTR_header] at h
    exact ⟨.drawStr x y fbase size color text, [0], rfl, decodeText_truncated h, by simp, rfl⟩

/-- Truncated operands are the beginning of a command's operands but not all of them. -/
theorem exists_missing_of_truncated {textMax : Nat} {op : Op} {bs : List Byte}
    (h : decodeOperands textMax op bs = .truncated) : ∃ (i : Instr) (missing : List Byte),
      i.op = op ∧ i.wellFormed textMax = true ∧ missing ≠ [] ∧ bs ++ missing = i.operandBytes := by
  by_cases hstr : op = .drawStr
  · subst hstr
    exact exists_missing_of_truncated_drawStr h
  by_cases hprint : op = .printStr
  · subst hprint
    exact ⟨.printStr bs, [0], rfl, decodeText_truncated h, by simp, rfl⟩
  obtain ⟨i, rest, rfl, hwf, hbytes⟩ := exists_operandBytes_append textMax hstr hprint
    (bs := bs ++ List.replicate 15 0) (by simp)
  obtain ⟨missing, hmissing, hoperands⟩ := exists_missing_of_append hwf h hbytes
  exact ⟨i, missing, rfl, hwf, hmissing, hoperands⟩

/-- After an opcode of a present profile the decoder reads its operands (R88, R104). -/
theorem decode_opcode {cfg : Config} {op : Op} (hoffers : cfg.offers op.profile = true) (bs : List Byte) :
    decode cfg (op.code :: bs) = decodeOperands cfg.textMax op bs := by
  simp only [decode, opOfByte_code, if_pos hoffers]

/-- Bytes are truncated exactly when they are the beginning of an admitted command but not all of it. -/
theorem decode_truncated_iff {cfg : Config} {bs : List Byte} (hbs : bs ≠ []) :
    decode cfg bs = .truncated ↔ ∃ (i : Instr) (missing : List Byte),
      i.admitted cfg = true ∧ missing ≠ [] ∧ bs ++ missing = encode i := by
  obtain ⟨b, bs, rfl⟩ := List.exists_cons_of_ne_nil hbs
  constructor
  · intro h
    rw [decode] at h
    split at h
    · cases h
    next op hop =>
      split_ifs at h with hoffers
      obtain ⟨i, missing, rfl, hwf, hmissing, hoperands⟩ := exists_missing_of_truncated h
      refine ⟨i, missing, by simp [Instr.admitted, hwf, hoffers], hmissing, ?_⟩
      rw [List.cons_append, hoperands, encode, code_of_opOfByte hop]
  · rintro ⟨i, missing, hadm, hmissing, hencode⟩
    obtain ⟨hwf, hoffers⟩ : i.wellFormed cfg.textMax = true ∧ cfg.offers i.op.profile = true := by
      simpa [Instr.admitted] using hadm
    obtain ⟨rfl, hoperands⟩ := List.cons.inj hencode
    rw [decode_opcode hoffers]
    exact decodeOperands_of_missing hwf hmissing hoperands

end Sys2Proof

namespace Sys2Proof.Machine

/-! ### The sequencer on a command that is cut off or whose text does not end (R225, R242) -/

/-- Beyond the end of the stream there is no byte to fetch (R50). -/
theorem step_outside {s : State} (hrun : s.fault = 0) (hpc : s.cmd.length < s.pc) : step s = .fault .fetchOutside := by
  rw [step, fetch, if_neg (not_not.mpr hrun), if_neg hpc.ne', if_pos hpc]

/-- The engine is stuck exactly when it is running and the decoder reads a truncated command at `PC`. -/
theorem step_stuck_iff (s : State) :
    step s = .fault .stuck ↔
      s.fault = 0 ∧ s.cmd.drop s.pc ≠ [] ∧ decode s.cfg (s.cmd.drop s.pc) = .truncated := by
  rw [ne_eq, List.drop_eq_nil_iff, Nat.not_le]
  by_cases hrun : s.fault = 0
  · obtain hpc | hend | hout := lt_trichotomy s.pc s.cmd.length
    · rw [step, fetch_running hrun hpc, State.fetchBytes]
      cases decode s.cfg (s.cmd.drop s.pc) with
      | instr i rest =>
        obtain ⟨t, ht⟩ := exec_total i s
        simp [fetchedOf, ht]
      | illegalCommand | textUnterminated => simp [fetchedOf]
      | truncated => simp [fetchedOf, hrun, hpc]
    · simp [step_finished ⟨hend, hrun⟩, hend]
    · simp [step_outside hrun hout, hout.not_gt]
  · have hnot : ¬ step s = .fault .stuck := by simp [step_halted hrun]
    exact iff_of_false hnot fun ⟨h, _⟩ => hrun h

/-- Settles O11: a stuck engine is running with bytes left, which are a truncated command. -/
theorem stuckExactlyOnATruncatedCommand : Obligations.StuckExactlyOnATruncatedCommand := by
  intro s
  refine ⟨?_, fun h => ⟨fun hhalted => ?_, fun hfinal => ?_⟩⟩
  · rw [step_stuck_iff]
    exact and_congr_right fun _ => and_congr_right decode_truncated_iff
  · rw [step_halted hhalted] at h
    cases h
  · rw [step_finished hfinal] at h
    cases h

/-- A running engine that decodes an unterminated text takes the fault (R225). -/
theorem step_textUnterminated {s : State} {op : Op} {bs : List Byte} (hrun : s.fault = 0)
    (hoffers : s.cfg.offers op.profile = true) (hbytes : s.cmd.drop s.pc = op.code :: bs)
    (hdecode : decodeOperands s.cfg.textMax op bs = .textUnterminated) :
    step s = .next { s with fault := 2, faultPc := s.pc } := by
  rw [step, fetch_of_drop_eq_cons hrun hbytes, decode_opcode hoffers, hdecode]
  rfl

/-- Settles O10: the text field of either command is unterminated, whatever stands before it. -/
theorem unterminatedTextRaisesTextUnterminated : Obligations.UnterminatedTextRaisesTextUnterminated := by
  intro s header text rest hrun hlayout hlen hne hbytes
  have htext := decodeText_unterminated hlen hne rest
  obtain hprint | ⟨hheader, hstr⟩ := hbytes
  · exact step_textUnterminated (op := .printStr) hrun hlayout hprint (htext _)
  · obtain ⟨x, y, fbase, size, color, rfl⟩ := exists_strHeader hheader
    refine step_textUnterminated (op := .drawStr) hrun hlayout hstr ?_
    rw [List.append_assoc, decodeOperands, decodeSTR_header]
    exact htext _

/-! ### What a fault changes (R222, R223) -/

/-- Settles O15: a completed command keeps `FAULT` at the 0 it was fetched with, so the step took a fault. -/
theorem faultsArePreciseAndHalt : Obligations.FaultsArePreciseAndHalt := by
  intro s t h hfault
  obtain ⟨hrun, -⟩ := step_next h
  obtain ⟨c, rfl⟩ | ⟨i, u, rfl, heff⟩ := step_effect h
  · obtain ⟨hlow, hhigh⟩ := c.code_range
    exact ⟨hrun, hlow, hhigh, rfl, step_halted hfault⟩
  · obtain ⟨-, hu, -⟩ := heff.frame
    exact absurd (hu.trans hrun) hfault

/-! ### The checks of the commands (R226 to R228) -/

theorem orFault_checkCol_error (s : State) {color : Byte} (h : 3 < color.toNat)
    (k : BitVec 2 → Host.Outcome State Fault Refusal) :
    s.orFault (checkCol color) k = .next { s with fault := 3, faultPc := s.pc } := by
  rw [checkCol_error h]
  rfl

theorem orFault_formatInt_error (s : State) {n : Int} (h : s.cfg.intBufCap < (decimal n).length + 1)
    (k : List Byte → Host.Outcome State Fault Refusal) :
    s.orFault (formatInt s.cfg n) k = .next { s with fault := 4, faultPc := s.pc } := by
  rw [formatInt_error h]
  rfl

/-- The fault names the first character outside the font, and the state does not hold it. -/
theorem orFault_drawText_error (s : State) {base : Nat} {text : List Byte} {c : Byte}
    (hout : s.cfg.fontBytes ≤ base + 8 * c.toNat + 7) (hc : c ∈ text) (x y size : Int) (d : Directive) (fb : Memory)
    (k : Memory → Host.Outcome State Fault Refusal) :
    s.orFault (drawText s.cfg x y text base size d fb) k = .next { s with fault := 5, faultPc := s.pc } := by
  obtain ⟨c', hdraw⟩ := drawText_error hc (glyphInFont_false_iff.mpr hout) x y size d fb
  rw [hdraw]
  rfl

/-- Settles O49: the `col` byte is the first check of each of the six commands. -/
theorem reservedColorBitsRaiseIllegalOperand : Obligations.ReservedColorBitsRaiseIllegalOperand := by
  intro s color hcol
  have hcheck := orFault_checkCol_error s hcol
  exact ⟨fun _ _ => hcheck _, fun _ _ _ _ => hcheck _, fun _ _ _ _ => hcheck _, fun _ _ _ _ _ => hcheck _,
    fun _ _ _ _ _ => hcheck _, hcheck _⟩

/-- Settles O50: the number is formatted before any glyph is looked up. -/
theorem longNumberRaisesFormatOverflow : Obligations.LongNumberRaisesFormatOverflow := by
  intro s num hlong
  refine ⟨fun x y b n color hcol => ?_, fun hfp => ?_⟩
  · rw [exec_drawInt_legal s x y b n hcol]
    exact orFault_formatInt_error s hlong _
  · rw [exec_printInt_font hfp]
    exact orFault_formatInt_error s hlong _

/-- Settles O51: the check that fails is the last before the drawing. -/
theorem glyphOutsideFontRaisesFontBounds : Obligations.GlyphOutsideFontRaisesFontBounds := by
  intro s base text c num hout
  refine ⟨fun hc x y n color hcol => ?_, fun hc hfits x y n color hcol => ?_, ?_⟩
  · rw [exec_drawStr_legal s x y base n hcol]
    exact orFault_drawText_error s hout hc _ _ _ _ _ _
  · rw [exec_drawInt_legal s x y base n hcol, formatInt_ok hfits]
    exact orFault_drawText_error s hout hc _ _ _ _ _ _
  · rintro hfp rfl
    refine ⟨fun hc => ?_, ?_, fun hc hfits => ?_⟩
    · rw [exec_printStr_font hfp]
      exact orFault_drawText_error s hout hc _ _ _ _ _ _
    · rw [exec_printChar_font hfp, fetchGlyph_error (glyphInFont_false_iff.mpr hout)]
      rfl
    · rw [exec_printInt_font hfp, formatInt_ok hfits]
      exact orFault_drawText_error s hout hc _ _ _ _ _ _

end Sys2Proof.Machine
end

section
/-! SUPPORT. Proofs of the statements about reset (70_reset_and_hazards.md): the reset event clears the fault that
halts the engine and keeps what R252 lists. -/

namespace Sys2Proof.Machine

theorem State.afterReset_eq (s : State) (acks : List Bool) : s.afterReset acks = State.resetOf s.cfg s.cmd acks := rfl

/-- The reset value of `FAULT` is 0. -/
theorem State.resetOf_not_halted (cfg : Config) (cmd : List Byte) (acks : List Bool) :
    ¬ (State.resetOf cfg cmd acks).halted :=
  fun h => h (State.resetOf_fault cfg cmd acks)

/-- Settles O2: each part is a fact about the reset state the event gives. -/
theorem resetEventLeavesHaltAndKeepsConfiguration : Obligations.ResetEventLeavesHaltAndKeepsConfiguration := by
  intro s acks
  rw [State.afterReset_eq]
  exact ⟨rfl, State.resetOf_cfg _ _ _, State.resetOf_cmd _ _ _, State.resetOf_not_halted _ _ _⟩

end Sys2Proof.Machine
end
